-- ==== Sys2Proof/Word.lean ====
section
/-! DEFINITION. The word types of the core (00_scope.md R9, R10; 10_state.md R20, R23): every value is unsigned, and
bit 0 is the least significant bit. -/

namespace Sys2Proof

/-- An 8-bit value: a V register, a timer, a memory cell (R20, R30, R38). -/
abbrev Byte := BitVec 8

/-- A 16-bit value: an instruction word, `I`, `pc`, a stack entry (R23, R25, R27). -/
abbrev Word := BitVec 16

/-- The 12-bit address field `nnn` of an instruction (R93). -/
abbrev Addr12 := BitVec 12

/-- The number of a V register, 0..15 (R20): a register field names each of them, and none is reserved (R94). -/
abbrev Reg := Fin 16

/-- VF, the flag register (R21). -/
abbrev vf : Reg := 15

/-- `zext_16` of a byte (R10). -/
def Byte.zext (b : Byte) : Word := b.setWidth 16

/-- `zext_16` of a 12-bit address (R10, R94). -/
def Addr12.zext (a : Addr12) : Word := a.setWidth 16

end Sys2Proof
end

