-- ==== Sys2Proof/Syntax.lean ====
section
/-! DEFINITION. The instruction set: one constructor per row of spec/opcode_table.json (30_encoding.md R95, R96, R103).
`x` and `y` are register numbers, `nn` an 8-bit immediate, `nnn` a 12-bit address, `n` a row count (R93, R94). -/

namespace Sys2Proof

/-- The 35 encodings of R96: 34 that execute, and SYS, which names an instruction this core answers with
UnknownOpcode (R131). -/
inductive Instr where
  /-- `00E0` CLS (R205) -/
  | cls
  /-- `00EE` RET (R124) -/
  | ret
  /-- `0NNN` SYS addr (R131) -/
  | sys (nnn : Addr12)
  /-- `1NNN` JP addr (R120) -/
  | jp (nnn : Addr12)
  /-- `2NNN` CALL addr (R121) -/
  | call (nnn : Addr12)
  /-- `3XNN` SE Vx, byte (R140) -/
  | seImm (x : Reg) (nn : Byte)
  /-- `4XNN` SNE Vx, byte (R141) -/
  | sneImm (x : Reg) (nn : Byte)
  /-- `5XY0` SE Vx, Vy (R142) -/
  | seReg (x y : Reg)
  /-- `6XNN` LD Vx, byte (R180) -/
  | ldImm (x : Reg) (nn : Byte)
  /-- `7XNN` ADD Vx, byte (R150) -/
  | addImm (x : Reg) (nn : Byte)
  /-- `8XY0` LD Vx, Vy (R181) -/
  | ldReg (x y : Reg)
  /-- `8XY1` OR Vx, Vy (R153) -/
  | orReg (x y : Reg)
  /-- `8XY2` AND Vx, Vy (R154) -/
  | andReg (x y : Reg)
  /-- `8XY3` XOR Vx, Vy (R155) -/
  | xorReg (x y : Reg)
  /-- `8XY4` ADD Vx, Vy (R156) -/
  | addReg (x y : Reg)
  /-- `8XY5` SUB Vx, Vy (R157) -/
  | subReg (x y : Reg)
  /-- `8XY6` SHR Vx, Vy (R158) -/
  | shrReg (x y : Reg)
  /-- `8XY7` SUBN Vx, Vy (R159) -/
  | subnReg (x y : Reg)
  /-- `8XYE` SHL Vx, Vy (R160) -/
  | shlReg (x y : Reg)
  /-- `9XY0` SNE Vx, Vy (R143) -/
  | sneReg (x y : Reg)
  /-- `ANNN` LD I, addr (R182) -/
  | ldI (nnn : Addr12)
  /-- `BNNN` JP V0, addr (R127) -/
  | jpV0 (nnn : Addr12)
  /-- `CXNN` RND Vx, byte (R200) -/
  | rnd (x : Reg) (nn : Byte)
  /-- `DXYN` DRW Vx, Vy, nibble (R207) -/
  | drw (x y : Reg) (n : Fin 16)
  /-- `EX9E` SKP Vx (R220) -/
  | skp (x : Reg)
  /-- `EXA1` SKNP Vx (R221) -/
  | sknp (x : Reg)
  /-- `FX07` LD Vx, DT (R235) -/
  | ldVxDT (x : Reg)
  /-- `FX0A` LD Vx, K (R223) -/
  | ldVxK (x : Reg)
  /-- `FX15` LD DT, Vx (R236) -/
  | ldDTVx (x : Reg)
  /-- `FX18` LD ST, Vx (R237) -/
  | ldSTVx (x : Reg)
  /-- `FX1E` ADD I, Vx (R163) -/
  | addI (x : Reg)
  /-- `FX29` LD F, Vx (R245) -/
  | ldF (x : Reg)
  /-- `FX33` LD B, Vx (R184) -/
  | ldB (x : Reg)
  /-- `FX55` LD [I], Vx (R186) -/
  | ldMemVx (x : Reg)
  /-- `FX65` LD Vx, [I] (R188) -/
  | ldVxMem (x : Reg)
  deriving DecidableEq, Repr

end Sys2Proof
end

