-- ==== Sys2Proof/Decode.lean ====
section
/-! DEFINITION. Decoding (30_encoding.md R91 to R97) and, after it, the encoder from the same formats. -/

namespace Sys2Proof

/-! ## The fields of a word (R93) -/

/-- `c = op[15:12]`, the major opcode. -/
def opC (op : Word) : BitVec 4 := op.extractLsb' 12 4

/-- `x = op[11:8]`. -/
def opX (op : Word) : Reg := (op.extractLsb' 8 4).toFin

/-- `y = op[7:4]`. -/
def opY (op : Word) : Reg := (op.extractLsb' 4 4).toFin

/-- `n = op[3:0]`. -/
def opN (op : Word) : Fin 16 := (op.extractLsb' 0 4).toFin

/-- `nn = op[7:0]`. -/
def opNN (op : Word) : Byte := op.extractLsb' 0 8

/-- `nnn = op[11:0]`. -/
def opNNN (op : Word) : Addr12 := op.extractLsb' 0 12

/-! ## Decode (R95) -/

/-- Why bytes are no instruction. Each `illegal` name is one of the rows of R96 with undefined words; the core raises
UnknownOpcode for every one of them (R97). -/
inductive DecodeError where
  /-- fewer than the 2 bytes of R91 -/
  | truncated
  /-- `5XYn` with n not 0 (R142) -/
  | illegal5XYn (op : Word)
  /-- `8XYn` with n in 8, 9, A, B, C, D, F (R161) -/
  | illegal8XYn (op : Word)
  /-- `9XYn` with n not 0 (R143) -/
  | illegal9XYn (op : Word)
  /-- `EXnn` with nn not in 9E, A1 (R96) -/
  | illegalEXnn (op : Word)
  /-- `FXnn` with nn not in 07, 0A, 15, 18, 1E, 29, 33, 55, 65 (R96, R238) -/
  | illegalFXnn (op : Word)
  deriving DecidableEq, Repr

/-- Row 0 of R95. Every word but CLS and RET is SYS (R131), whose meaning is the UnknownOpcode fault that R95 gives it. -/
def decodeSystem (op : Word) : Except DecodeError Instr :=
  if op = 0x00E0#16 then .ok .cls
  else if op = 0x00EE#16 then .ok .ret
  else .ok (.sys (opNNN op))

/-- Row 8 of R95. -/
def decodeAlu (op : Word) : Except DecodeError Instr :=
  match (opN op).val with
  | 0x0 => .ok (.ldReg (opX op) (opY op))
  | 0x1 => .ok (.orReg (opX op) (opY op))
  | 0x2 => .ok (.andReg (opX op) (opY op))
  | 0x3 => .ok (.xorReg (opX op) (opY op))
  | 0x4 => .ok (.addReg (opX op) (opY op))
  | 0x5 => .ok (.subReg (opX op) (opY op))
  | 0x6 => .ok (.shrReg (opX op) (opY op))
  | 0x7 => .ok (.subnReg (opX op) (opY op))
  | 0xE => .ok (.shlReg (opX op) (opY op))
  | _ => .error (.illegal8XYn op)

/-- Row E of R95. -/
def decodeKeySkip (op : Word) : Except DecodeError Instr :=
  match (opNN op).toNat with
  | 0x9E => .ok (.skp (opX op))
  | 0xA1 => .ok (.sknp (opX op))
  | _ => .error (.illegalEXnn op)

/-- Row F of R95. -/
def decodeMisc (op : Word) : Except DecodeError Instr :=
  match (opNN op).toNat with
  | 0x07 => .ok (.ldVxDT (opX op))
  | 0x0A => .ok (.ldVxK (opX op))
  | 0x15 => .ok (.ldDTVx (opX op))
  | 0x18 => .ok (.ldSTVx (opX op))
  | 0x1E => .ok (.addI (opX op))
  | 0x29 => .ok (.ldF (opX op))
  | 0x33 => .ok (.ldB (opX op))
  | 0x55 => .ok (.ldMemVx (opX op))
  | 0x65 => .ok (.ldVxMem (opX op))
  | _ => .error (.illegalFXnn op)

/-- `decode(op)` of R95, total on the 65536 words and a function of the word alone (R102). The last arm is row F: `c` has
four bits, so 0xF is the one value left. -/
def decode (op : Word) : Except DecodeError Instr :=
  match (opC op).toNat with
  | 0x0 => decodeSystem op
  | 0x1 => .ok (.jp (opNNN op))
  | 0x2 => .ok (.call (opNNN op))
  | 0x3 => .ok (.seImm (opX op) (opNN op))
  | 0x4 => .ok (.sneImm (opX op) (opNN op))
  | 0x5 => if opN op = 0 then .ok (.seReg (opX op) (opY op)) else .error (.illegal5XYn op)
  | 0x6 => .ok (.ldImm (opX op) (opNN op))
  | 0x7 => .ok (.addImm (opX op) (opNN op))
  | 0x8 => decodeAlu op
  | 0x9 => if opN op = 0 then .ok (.sneReg (opX op) (opY op)) else .error (.illegal9XYn op)
  | 0xA => .ok (.ldI (opNNN op))
  | 0xB => .ok (.jpV0 (opNNN op))
  | 0xC => .ok (.rnd (opX op) (opNN op))
  | 0xD => .ok (.drw (opX op) (opY op) (opN op))
  | 0xE => decodeKeySkip op
  | _ => decodeMisc op

/-- The word of two bytes in the order they stand in memory: big-endian (R64, R92). -/
def wordOfBytes (hi lo : Byte) : Word := hi ++ lo

/-- The first byte of a word in memory, `op[15:8]` (R64). -/
def hiByte (op : Word) : Byte := op.extractLsb' 8 8

/-- The second byte of a word in memory, `op[7:0]` (R64). -/
def loByte (op : Word) : Byte := op.extractLsb' 0 8

/-- The decoder on bytes: it always takes 2 (R91), and gives back the bytes it did not take. -/
def decodeBytes : List Byte → Except DecodeError (Instr × List Byte)
  | hi :: lo :: rest => (decode (wordOfBytes hi lo)).map (fun i => (i, rest))
  | [_] => .error .truncated
  | [] => .error .truncated

/-- What the decoder reads from the instruction whose bits are `w`, as spec/opcode_table.json numbers them: one word, laid
out big-endian. -/
def decodeTableWord (nbits w : Nat) : Option Instr :=
  let op := BitVec.ofNat 16 (w % 2 ^ nbits)
  match decodeBytes [hiByte op, loByte op] with
  | .ok (i, _) => some i
  | .error _ => none

/-! ## Encode, from the formats of R92 -/

/-- A register number or a count as the 4 bits of its field. -/
def nibble (k : Fin 16) : BitVec 4 := BitVec.ofFin k

/-- Format `A`: `c NNN`. -/
def fmtA (c : BitVec 4) (nnn : Addr12) : Word := c ++ nnn

/-- Formats `XNN` and `XK`: `c X NN`, where NN is an immediate or the fixed sub-opcode K. -/
def fmtXNN (c : BitVec 4) (x : Reg) (nn : Byte) : Word := c ++ nibble x ++ nn

/-- Format `XYN`: `c X Y N`, where N is a sub-opcode or the sprite height. -/
def fmtXYN (c : BitVec 4) (x y : Reg) (n : Fin 16) : Word := c ++ nibble x ++ nibble y ++ nibble n

/-- The word of an instruction (R92, R95; the `match` column of spec/opcode_table.json). -/
def encode : Instr → Word
  | .cls => 0x00E0#16
  | .ret => 0x00EE#16
  | .sys nnn => fmtA 0x0 nnn
  | .jp nnn => fmtA 0x1 nnn
  | .call nnn => fmtA 0x2 nnn
  | .seImm x nn => fmtXNN 0x3 x nn
  | .sneImm x nn => fmtXNN 0x4 x nn
  | .seReg x y => fmtXYN 0x5 x y 0x0
  | .ldImm x nn => fmtXNN 0x6 x nn
  | .addImm x nn => fmtXNN 0x7 x nn
  | .ldReg x y => fmtXYN 0x8 x y 0x0
  | .orReg x y => fmtXYN 0x8 x y 0x1
  | .andReg x y => fmtXYN 0x8 x y 0x2
  | .xorReg x y => fmtXYN 0x8 x y 0x3
  | .addReg x y => fmtXYN 0x8 x y 0x4
  | .subReg x y => fmtXYN 0x8 x y 0x5
  | .shrReg x y => fmtXYN 0x8 x y 0x6
  | .subnReg x y => fmtXYN 0x8 x y 0x7
  | .shlReg x y => fmtXYN 0x8 x y 0xE
  | .sneReg x y => fmtXYN 0x9 x y 0x0
  | .ldI nnn => fmtA 0xA nnn
  | .jpV0 nnn => fmtA 0xB nnn
  | .rnd x nn => fmtXNN 0xC x nn
  | .drw x y n => fmtXYN 0xD x y n
  | .skp x => fmtXNN 0xE x 0x9E
  | .sknp x => fmtXNN 0xE x 0xA1
  | .ldVxDT x => fmtXNN 0xF x 0x07
  | .ldVxK x => fmtXNN 0xF x 0x0A
  | .ldDTVx x => fmtXNN 0xF x 0x15
  | .ldSTVx x => fmtXNN 0xF x 0x18
  | .addI x => fmtXNN 0xF x 0x1E
  | .ldF x => fmtXNN 0xF x 0x29
  | .ldB x => fmtXNN 0xF x 0x33
  | .ldMemVx x => fmtXNN 0xF x 0x55
  | .ldVxMem x => fmtXNN 0xF x 0x65

end Sys2Proof
end

