-- ==== Sys2Proof/Config.lean ====
section
/-! DEFINITION. The implementation parameters of 00_scope.md R8, and the one free value the spec leaves OPEN: the draws of
`RANDOM` (44_random.md R201). The other OPEN parameter, `SCHEDULE`, is plain data in State (Machine/State.lean). -/

namespace Sys2Proof.Config

/-- MEM_SIZE: addresses 0x000..0xFFF (R8, R60). -/
abbrev memSize : Nat := 4096

/-- STACK_DEPTH (R8, R27). -/
abbrev stackDepth : Nat := 16

/-- DISPLAY_W, in cells (R8, R32). -/
abbrev displayW : Nat := 64

/-- DISPLAY_H, in cells (R8, R32). -/
abbrev displayH : Nat := 32

/-- PROGRAM_BASE: where `load_program` places the first byte (R8, R47). -/
abbrev programBase : Nat := 0x200

/-- MAX_PROGRAM: 4096 - 0x200 (R8, R47). -/
abbrev maxProgram : Nat := 3584

/-- RANDOM (R8, R201): the byte of the `k`-th draw a CXNN takes. A free value: it has no body, so nothing holds of it
but that it is a byte ("No law holds of it: not a distribution, not independence between draws, not a seed").
Assumption log 1. -/
opaque random : Nat → Byte

end Sys2Proof.Config
end

