-- ==== Sys2Proof/Machine/State.lean ====
section
/-! DEFINITION. The state of the core as plain data (10_state.md R20 to R39), what makes a step stop, and the state after
reset. -/

namespace Sys2Proof.Machine

/-- A fault record (R35): each kind holds the fields R35 calls valid for it. -/
inductive FaultRecord where
  /-- a fetched word that is no instruction, SYS included (60_exceptions.md R252) -/
  | unknownOpcode (opcode pc : Word)
  /-- a memory access at an address at or above 4096 (R251); `addr` is the lowest such address -/
  | outOfBoundsAccess (addr pc : Word)
  /-- 2NNN with SP = 16 (R253) -/
  | stackOverflow (opcode pc : Word)
  /-- 00EE with SP = 0 (R253) -/
  | stackUnderflow (opcode pc : Word)
  /-- `load_program` of more than 3584 bytes (R254) -/
  | programTooLarge (length : Nat)
  deriving DecidableEq, Repr

/-- The dispatcher mode MODE (R34). -/
inductive Mode where
  /-- the next cycle fetches and executes an instruction -/
  | running
  /-- the next cycle polls the keypad for register `t` -/
  | waitingForKey (t : Reg)
  /-- the core takes no more cycles -/
  | halted (f : FaultRecord)
  deriving DecidableEq, Repr

/-- The host events of R50. Each is atomic. -/
inductive Event where
  /-- `reset()` (R46) -/
  | reset
  /-- `load_program(bytes)` (R47) -/
  | loadProgram (bytes : List Byte)
  /-- `cycle()` (R48) -/
  | cycle
  /-- `timer_tick()` (R52) -/
  | timerTick
  /-- `set_key_state(k, pressed)` (R49) -/
  | setKeyState (k : Nat) (pressed : Bool)
  /-- `snapshot()` (R51) -/
  | snapshot
  deriving DecidableEq, Repr

/-- Memory as the list of the cells that differ from their reset contents (R38, R68): addresses strictly rising, all below
4096 (`Memory.wf` in Machine/Ops.lean). -/
abbrev Memory := List Host.Cell

/-- The display buffer FB (R32): row `y` of 0..31, whose bit `x` of 0..63 is the one-bit cell `FB[x][y]`. -/
abbrev Display := Vector (BitVec 64) 32

/-- The state. The last two fields are the model's own: they carry the two OPEN parameters of 00_scope.md R8. -/
structure State where
  /-- V[0..15] (R20) -/
  v : Vector Byte 16
  /-- the address register I (R23) -/
  i : Word
  /-- the program counter (R25) -/
  pc : Word
  /-- SP, 0..16 (R28) -/
  sp : Fin 17
  /-- STACK[0..15] (R27) -/
  stack : Vector Word 16
  /-- the delay timer DT (R30) -/
  dt : Byte
  /-- the sound timer ST (R31) -/
  st : Byte
  /-- the display buffer FB (R32) -/
  fb : Display
  /-- KEY[0..15], true is pressed (R33) -/
  key : Vector Bool 16
  /-- Mem (R38) -/
  mem : Memory
  /-- MODE, with the fault record in it (R34, R35) -/
  mode : Mode
  /-- LOAD_OPEN (R36) -/
  loadOpen : Bool
  /-- the model's own: the draws RANDOM has given so far (44_random.md R201; log 1) -/
  draws : Nat
  /-- the model's own: the events still to come, oldest first (SCHEDULE, R50; log 2) -/
  schedule : List Event
  deriving DecidableEq, Repr

/-- Faults in the sense of `Host.Outcome`: a stop that leaves no next state. The core has none. Each of the five faults of
60_exceptions.md R250 is TAKEN: it leads to the next state of R257, in which MODE is Halted (`raise` in Machine/Ops.lean),
and which timer ticks, key events, snapshots and a reset still act on (R258). Log 3. -/
inductive Fault where
  deriving DecidableEq, Repr

/-- What the spec itself refuses, and the stub of an instruction without a meaning. -/
inductive Refusal where
  /-- raised by `exec`'s arm of an instruction that has no meaning yet (none is left); safe -/
  | notModelled (mnemonic : String)
  /-- raised by a `cycle` while MODE is Halted: "A cycle in mode Halted is not admitted" (R48); safe -/
  | cycleWhileHalted
  /-- raised by a `load_program` while LOAD_OPEN is false: "the model has no meaning for it and refuses it" (R47); safe -/
  | loadNotOpen
  /-- raised by a `set_key_state` of a key above 15: "A k outside 0..15 is refused" (R49); safe -/
  | noSuchKey
  deriving DecidableEq, Repr

/-- What an instruction or an event answers. -/
abbrev Result := Host.Outcome State Fault Refusal

/-- The state after `reset()` (R39; 70_reset_and_hazards.md R290). Memory lists nothing: an unlisted address reads as its
reset contents, the font table included. -/
def State.reset : State where
  v := Vector.replicate 16 0
  i := 0
  pc := 0x200
  sp := 0
  stack := Vector.replicate 16 0
  dt := 0
  st := 0
  fb := Vector.replicate 32 0
  key := Vector.replicate 16 false
  mem := []
  mode := .running
  loadOpen := true
  draws := 0
  schedule := []

end Sys2Proof.Machine
end

