-- ==== Sys2Proof/Machine/Ops.lean ====
section
/-! DEFINITION. The named operations over memory, registers and the display, and taking a fault. -/

namespace Sys2Proof.Machine

/-! ## Memory (20_memory.md) -/

/-- FONT_BASE (00_scope.md R8; 92_eei_decisions.md D4). -/
def fontBase : Nat := 0x050

/-- The font table of R70, one glyph of five rows a line (log 5). -/
def fontTable : List Byte :=
  [0xF0, 0x90, 0x90, 0x90, 0xF0] ++
  [0x20, 0x60, 0x20, 0x20, 0x70] ++
  [0xF0, 0x10, 0xF0, 0x80, 0xF0] ++
  [0xF0, 0x10, 0xF0, 0x10, 0xF0] ++
  [0x90, 0x90, 0xF0, 0x10, 0x10] ++
  [0xF0, 0x80, 0xF0, 0x10, 0xF0] ++
  [0xF0, 0x80, 0xF0, 0x90, 0xF0] ++
  [0xF0, 0x10, 0x20, 0x40, 0x40] ++
  [0xF0, 0x90, 0xF0, 0x90, 0xF0] ++
  [0xF0, 0x90, 0xF0, 0x10, 0xF0] ++
  [0xF0, 0x90, 0xF0, 0x90, 0x90] ++
  [0xE0, 0x90, 0xE0, 0x90, 0xE0] ++
  [0xF0, 0x80, 0x80, 0x80, 0xF0] ++
  [0xE0, 0x90, 0x90, 0x90, 0xE0] ++
  [0xF0, 0x80, 0xF0, 0x80, 0xF0] ++
  [0xF0, 0x80, 0xF0, 0x80, 0x80]

/-- What an address nothing has written reads as: its reset contents, zero but for the font table (R38, R68, R70). -/
def resetByte (a : Nat) : Byte :=
  if fontBase ≤ a then fontTable.getD (a - fontBase) 0 else 0

/-- The byte at an address, `Mem[a]` (R12). The bound of R62 is checked before, by `firstOutOfRange`. -/
def Memory.read : Memory → Nat → Byte
  | [], a => resetByte a
  | (k, b) :: rest, a => if k = a then b else Memory.read rest a

/-- The list without the entry of address `a`. -/
def Memory.erase : Memory → Nat → Memory
  | [], _ => []
  | (k, c) :: rest, a => if k = a then Memory.erase rest a else (k, c) :: Memory.erase rest a

/-- The list with an entry for an address it does not list, in its place. -/
def Memory.insert : Memory → Nat → Byte → Memory
  | [], a, b => [(a, b)]
  | (k, c) :: rest, a, b => if a < k then (a, b) :: (k, c) :: rest else (k, c) :: Memory.insert rest a b

/-- `Mem[a] <- b` (R62), keeping the canonical form: a byte equal to what `a` reads as unlisted is not listed. -/
def Memory.write (m : Memory) (a : Nat) (b : Byte) : Memory :=
  if b = resetByte a then Memory.erase m a else Memory.insert (Memory.erase m a) a b

/-- Bytes written at consecutive addresses from `a`, in ascending order (R67). -/
def Memory.writeBlock (m : Memory) (a : Nat) : List Byte → Memory
  | [] => m
  | b :: bs => Memory.writeBlock (Memory.write m a b) (a + 1) bs

/-- The canonical form from address `lo` on: addresses at least `lo`, strictly rising and below 4096, and no entry equal to
what its address reads as unlisted. -/
def Memory.wfFrom : Nat → Memory → Bool
  | _, [] => true
  | lo, (a, b) :: rest => decide (lo ≤ a) && decide (a < Config.memSize) && b != resetByte a && Memory.wfFrom (a + 1) rest

/-- The canonical form. -/
def Memory.wf (m : Memory) : Bool := Memory.wfFrom 0 m

/-- The checks `for k in 0..n-1: check a + k < 4096` of DXYN, FX33, FX55 and FX65 (R62, R67): the first address out of
range, if there is one. -/
def firstOutOfRange : (a n : Nat) → Option Nat
  | _, 0 => none
  | a, n + 1 => if a < Config.memSize then firstOutOfRange (a + 1) n else some a

/-! ## Registers (10_state.md) -/

/-- V[r] (R20): no register is hard-wired. -/
def State.reg (s : State) (r : Reg) : Byte := s.v[r.val]

/-- `V[r] <- b` (R20). -/
def State.setReg (s : State) (r : Reg) (b : Byte) : State := { s with v := s.v.set r.val b }

/-- `pc <- next` (00_scope.md R16): pc + 2 mod 2^16 (R25). -/
def State.advance (s : State) : State := { s with pc := s.pc + 2 }

/-- `if cond: pc <- skip else pc <- next` (R16; 41_conditional_skip.md R144). -/
def State.skipIf (s : State) (cond : Bool) : State := { s with pc := if cond then s.pc + 4 else s.pc + 2 }

/-- A result into V[x] and then the flag into VF, so that the flag stays when x = F (R22), and `pc <- next`. The operands
are read before, from the state the instruction starts in. -/
def State.writeResultThenFlag (s : State) (x : Reg) (result flag : Byte) : State :=
  ((s.setReg x result).setReg vf flag).advance

/-- `for k in 0..n-1: V[k] <- Mem[a + k]` (43_transfer.md R188). -/
def loadRegs (m : Memory) (a : Nat) : Nat → Vector Byte 16 → Vector Byte 16
  | 0, v => v
  | n + 1, v => (loadRegs m a n v).setIfInBounds n (Memory.read m (a + n))

/-- The bytes V[0], ..., V[x] (43_transfer.md R186). -/
def State.regsUpTo (s : State) (x : Reg) : List Byte := s.v.toList.take (x.val + 1)

/-! ## The display buffer (10_state.md R32): a coordinate is reduced modulo the dimension -/

/-- `FB[x mod 64][y mod 32]`. -/
def Display.cell (fb : Display) (x y : Nat) : Bool :=
  (fb[y % Config.displayH]'(Nat.mod_lt _ (by decide))).getLsbD (x % Config.displayW)

/-- `FB[x mod 64][y mod 32] <- FB[x mod 64][y mod 32] ^ 1`. -/
def Display.flip (fb : Display) (x y : Nat) : Display :=
  fb.set (y % Config.displayH)
    (fb[y % Config.displayH]'(Nat.mod_lt _ (by decide)) ^^^ BitVec.twoPow 64 (x % Config.displayW))
    (Nat.mod_lt _ (by decide))

/-- All cells 0. -/
def Display.clear : Display := Vector.replicate 32 0

/-! ## Taking a fault, and the way out of one (60_exceptions.md R256 to R258) -/

/-- `raise F(info)` (00_scope.md R13; R257): `MODE <- Halted(f)` and nothing else, on the state the instruction or event
started in, so that no write of it takes effect (R256). There is no handler, vector or saved state. -/
def raise (f : FaultRecord) (s : State) : Result := .next { s with mode := .halted f }

/-- `raise OutOfBoundsAccess(addr, pc)` if there is an address out of range, else the instruction's effect (R251). -/
def guardRange (s : State) (bad : Option Nat) (effect : State) : Result :=
  match bad with
  | some a => raise (.outOfBoundsAccess (BitVec.ofNat 16 a) s.pc) s
  | none => .next effect

/-- `reset()` (10_state.md R46; 70_reset_and_hazards.md R290), admitted in every mode and the only way out of Halted
(R258). The two fields of the model's own go on: the events still to come, and the count of draws (log 1, 2). -/
def hostReset (s : State) : State := { State.reset with draws := s.draws, schedule := s.schedule }

/-- The numeric code of a fault (R250). -/
def FaultRecord.code : FaultRecord → Nat
  | .unknownOpcode _ _ => 1
  | .outOfBoundsAccess _ _ => 2
  | .stackOverflow _ _ => 3
  | .stackUnderflow _ _ => 4
  | .programTooLarge _ => 5

end Sys2Proof.Machine
end

