-- ==== Sys2Proof/Machine/Operands.lean ====
section
/-! DEFINITION. The operand forms: what an instruction reads through a register, I or an immediate. -/

namespace Sys2Proof.Machine

/-- The effective address `I + k`, an exact sum with no wrap (20_memory.md R65; 10_state.md R24). -/
def State.dataAddr (s : State) (k : Nat) : Nat := s.i.toNat + k

/-- The check of the `n` bytes from I on (20_memory.md R67). -/
def State.dataOutOfRange (s : State) (n : Nat) : Option Nat := firstOutOfRange (s.dataAddr 0) n

/-- The low nibble of a register: the key or the glyph it names (46_keypad.md R222; 48_font.md R245). -/
def lowNibble (b : Byte) : Fin 16 := (b.extractLsb' 0 4).toFin

/-- `KEY[V[x] & 0xF]` (R222). -/
def State.keyOf (s : State) (x : Reg) : Bool := s.key[(lowNibble (s.reg x)).val]

/-- `FONT_BASE + 5 * (b & 0xF)` (R245). -/
def glyphAddr (b : Byte) : Word := BitVec.ofNat 16 (fontBase + 5 * (lowNibble b).val)

/-- Hundreds, tens and ones of a byte, in the order they are stored (43_transfer.md R184; log 7). -/
def bcdDigits (b : Byte) : List Byte :=
  [BitVec.ofNat 8 (b.toNat / 100), BitVec.ofNat 8 (b.toNat / 10 % 10), BitVec.ofNat 8 (b.toNat % 10)]

end Sys2Proof.Machine
end

