-- ==== Sys2Proof/Machine/Flags.lean ====
section
/-! DEFINITION. What the arithmetic instructions compute: the 8-bit result and the flag for VF (42_arithmetic.md). Sums and
differences are exact numbers first, narrowed at the end (R151). -/

namespace Sys2Proof.Machine

/-- A flag as the byte VF takes: 1 or 0. -/
def flagByte (c : Bool) : Byte := if c then 1 else 0

/-- `trunc_8(a + b)` (R150, R156). -/
def addResult (a b : Byte) : Byte := BitVec.ofNat 8 (a.toNat + b.toNat)

/-- Carry: 1 iff the exact sum exceeds 255 (R156). -/
def addCarry (a b : Byte) : Byte := flagByte (decide (a.toNat + b.toNat > 255))

/-- `trunc_8(a - b + 256)` (R157, R159). -/
def subResult (a b : Byte) : Byte := BitVec.ofNat 8 (a.toNat + 256 - b.toNat)

/-- No borrow: 1 iff minuend >= subtrahend (R157, R159). -/
def subNoBorrow (a b : Byte) : Byte := flagByte (decide (a.toNat ≥ b.toNat))

/-- `b >> 1` (R158). -/
def shrResult (b : Byte) : Byte := b >>> 1

/-- The bit a right shift moves out: bit 0 (R158). -/
def shrOut (b : Byte) : Byte := b &&& 1

/-- `trunc_8(b << 1)` (R160). -/
def shlResult (b : Byte) : Byte := b <<< 1

/-- The bit a left shift moves out: bit 7 (R160). -/
def shlOut (b : Byte) : Byte := b >>> 7

/-- The flag the logical operations leave: 0 (R153 to R155; 92_eei_decisions.md D7). -/
def logicFlag : Byte := 0

end Sys2Proof.Machine
end

