-- ==== Sys2Proof/Machine/Arith.lean ====
section
/-! DEFINITION. Arithmetic and logic (42_arithmetic.md). -/

namespace Sys2Proof.Machine

/-- ADD Vx, byte, `7XNN` (R150): no flag. -/
def execAddImm (x : Reg) (nn : Byte) (s : State) : Result := .next (s.setReg x (addResult (s.reg x) nn)).advance

/-- OR Vx, Vy, `8XY1` (R153). -/
def execOrReg (x y : Reg) (s : State) : Result := .next (s.writeResultThenFlag x (s.reg x ||| s.reg y) logicFlag)

/-- AND Vx, Vy, `8XY2` (R154). -/
def execAndReg (x y : Reg) (s : State) : Result := .next (s.writeResultThenFlag x (s.reg x &&& s.reg y) logicFlag)

/-- XOR Vx, Vy, `8XY3` (R155). -/
def execXorReg (x y : Reg) (s : State) : Result := .next (s.writeResultThenFlag x (s.reg x ^^^ s.reg y) logicFlag)

/-- ADD Vx, Vy, `8XY4` (R156). -/
def execAddReg (x y : Reg) (s : State) : Result :=
  .next (s.writeResultThenFlag x (addResult (s.reg x) (s.reg y)) (addCarry (s.reg x) (s.reg y)))

/-- SUB Vx, Vy, `8XY5` (R157): Vx minus Vy. -/
def execSubReg (x y : Reg) (s : State) : Result :=
  .next (s.writeResultThenFlag x (subResult (s.reg x) (s.reg y)) (subNoBorrow (s.reg x) (s.reg y)))

/-- SHR Vx, Vy, `8XY6` (R158): the source is Vy. -/
def execShrReg (x y : Reg) (s : State) : Result :=
  .next (s.writeResultThenFlag x (shrResult (s.reg y)) (shrOut (s.reg y)))

/-- SUBN Vx, Vy, `8XY7` (R159): Vy minus Vx. -/
def execSubnReg (x y : Reg) (s : State) : Result :=
  .next (s.writeResultThenFlag x (subResult (s.reg y) (s.reg x)) (subNoBorrow (s.reg y) (s.reg x)))

/-- SHL Vx, Vy, `8XYE` (R160): the source is Vy. -/
def execShlReg (x y : Reg) (s : State) : Result :=
  .next (s.writeResultThenFlag x (shlResult (s.reg y)) (shlOut (s.reg y)))

/-- ADD I, Vx, `FX1E` (R163): 16-bit wrap, no flag, no fault. -/
def execAddI (x : Reg) (s : State) : Result := .next { s with i := s.i + (s.reg x).zext }.advance

end Sys2Proof.Machine
end

