-- ==== Sys2Proof/Machine/Control.lean ====
section
/-! DEFINITION. Jumps, call, return and SYS (40_control_transfer.md). A target is not checked: an address out of range shows
at the next fetch (R128, R130). -/

namespace Sys2Proof.Machine

/-- JP addr, `1NNN` (R120). -/
def execJp (nnn : Addr12) (s : State) : Result := .next { s with pc := nnn.zext }

/-- CALL addr, `2NNN` (R121), with the check of R122. -/
def execCall (nnn : Addr12) (s : State) : Result :=
  if h : s.sp.val < Config.stackDepth then
    .next { s with stack := s.stack.set s.sp.val (s.pc + 2), sp := ⟨s.sp.val + 1, Nat.succ_lt_succ h⟩, pc := nnn.zext }
  else raise (.stackOverflow (encode (.call nnn)) s.pc) s

/-- RET, `00EE` (R124), with the check of R125. The popped entry keeps its value (10_state.md R29). -/
def execRet (s : State) : Result :=
  if h : 0 < s.sp.val then
    .next { s with sp := ⟨s.sp.val - 1, Nat.lt_of_le_of_lt (Nat.sub_le _ _) s.sp.isLt⟩,
                   pc := s.stack[s.sp.val - 1]'(Nat.sub_one_lt_of_le h (Nat.le_of_lt_succ s.sp.isLt)) }
  else raise (.stackUnderflow (encode .ret) s.pc) s

/-- JP V0, addr, `BNNN` (R127): the offset is V0 whatever the X field is. -/
def execJpV0 (nnn : Addr12) (s : State) : Result := .next { s with pc := nnn.zext + (s.reg 0).zext }

/-- SYS addr, `0NNN` (R131): an illegal encoding, UnknownOpcode always. -/
def execSys (nnn : Addr12) (s : State) : Result := raise (.unknownOpcode (encode (.sys nnn)) s.pc) s

end Sys2Proof.Machine
end

