-- ==== Sys2Proof/Machine/Display.lean ====
section
/-! DEFINITION. Clear and draw (45_display.md). -/

namespace Sys2Proof.Machine

/-- The body of R207's innermost loop for a sprite bit that is 1: note a set cell as a hit, and flip the cell. -/
def drawCell (x y : Nat) (acc : Display × Bool) : Display × Bool :=
  (acc.1.flip x y, acc.2 || acc.1.cell x y)

/-- R207's loop over the first `n` columns of one sprite row: bit 7 - c of the byte is column `cx + c` (R209). -/
def drawRow (b : Byte) (cx y : Nat) : Nat → Display × Bool → Display × Bool
  | 0, acc => acc
  | c + 1, acc =>
    let before := drawRow b cx y c acc
    if b.getLsbD (7 - c) then drawCell (cx + c) y before else before

/-- R207's loop over the first `n` rows of the sprite at address `a`. -/
def drawRows (m : Memory) (a cx cy : Nat) : Nat → Display × Bool → Display × Bool
  | 0, acc => acc
  | r + 1, acc => drawRow (Memory.read m (a + r)) cx (cy + r) 8 (drawRows m a cx cy r acc)

/-- CLS, `00E0` (R205). -/
def execCls (s : State) : Result := .next { s with fb := Display.clear }.advance

/-- DRW Vx, Vy, nibble, `DXYN` (R207): every pixel wraps (R211), n = 0 draws nothing (R210), and VF, the collision flag, is
written last (R208). -/
def execDrw (x y : Reg) (n : Fin 16) (s : State) : Result :=
  let drawn := drawRows s.mem (s.dataAddr 0) (s.reg x).toNat (s.reg y).toNat n.val (s.fb, false)
  guardRange s (s.dataOutOfRange n.val) ({ s with fb := drawn.1 }.setReg vf (flagByte drawn.2)).advance

end Sys2Proof.Machine
end

