-- ==== Sys2Proof/Machine/Font.lean ====
section
/-! DEFINITION. Font address lookup (48_font.md). -/

namespace Sys2Proof.Machine

/-- LD F, Vx, `FX29` (R245): the address of the glyph, whatever memory holds there. -/
def execLdF (x : Reg) (s : State) : Result := .next { s with i := glyphAddr (s.reg x) }.advance

end Sys2Proof.Machine
end

