-- ==== Sys2Proof/Machine/Keypad.lean ====
section
/-! DEFINITION. Key skips and the key wait (46_keypad.md). -/

namespace Sys2Proof.Machine

/-- SKP Vx, `EX9E` (R220). -/
def execSkp (x : Reg) (s : State) : Result := .next (s.skipIf (s.keyOf x))

/-- SKNP Vx, `EXA1` (R221). -/
def execSknp (x : Reg) (s : State) : Result := .next (s.skipIf (!s.keyOf x))

/-- LD Vx, K, `FX0A` (R223): enter WaitingForKey, without polling; pc stays at this FX0A. -/
def execLdVxK (x : Reg) (s : State) : Result := .next { s with mode := .waitingForKey x }

/-- The smallest k from `k` on whose key is pressed (R224, R225). -/
def firstPressed : Nat → List Bool → Option Nat
  | _, [] => none
  | k, true :: _ => some k
  | k, false :: rest => firstPressed (k + 1) rest

/-- `poll_keys(t)` (R224): with no key pressed nothing changes; else the smallest pressed key number goes to V[t], and the
core runs on after the FX0A. -/
def pollKeys (t : Reg) (s : State) : Result :=
  match firstPressed 0 s.key.toList with
  | none => .next s
  | some k => .next { s.setReg t (BitVec.ofNat 8 k) with mode := .running }.advance

end Sys2Proof.Machine
end

