-- ==== Sys2Proof/Machine/Random.lean ====
section
/-! DEFINITION. The masked random byte (44_random.md). -/

namespace Sys2Proof.Machine

/-- RND Vx, byte, `CXNN` (R200): one draw of RANDOM (R201), masked. The draw is the free value `Config.random` at the
number of draws before it, and the count moves on (log 1). -/
def execRnd (x : Reg) (nn : Byte) (s : State) : Result :=
  .next { s.setReg x (Config.random s.draws &&& nn) with draws := s.draws + 1 }.advance

end Sys2Proof.Machine
end

