-- ==== Sys2Proof/Machine/Timers.lean ====
section
/-! DEFINITION. Timer get and set (47_timers.md). -/

namespace Sys2Proof.Machine

/-- LD Vx, DT, `FX07` (R235). -/
def execLdVxDT (x : Reg) (s : State) : Result := .next (s.setReg x s.dt).advance

/-- LD DT, Vx, `FX15` (R236). -/
def execLdDTVx (x : Reg) (s : State) : Result := .next { s with dt := s.reg x }.advance

/-- LD ST, Vx, `FX18` (R237). -/
def execLdSTVx (x : Reg) (s : State) : Result := .next { s with st := s.reg x }.advance

end Sys2Proof.Machine
end

