-- ==== Sys2Proof/Machine/Transfer.lean ====
section
/-! DEFINITION. Register and memory transfer (43_transfer.md). -/

namespace Sys2Proof.Machine

/-- LD Vx, byte, `6XNN` (R180). -/
def execLdImm (x : Reg) (nn : Byte) (s : State) : Result := .next (s.setReg x nn).advance

/-- LD Vx, Vy, `8XY0` (R181): VF is not cleared. -/
def execLdReg (x y : Reg) (s : State) : Result := .next (s.setReg x (s.reg y)).advance

/-- LD I, addr, `ANNN` (R182). -/
def execLdI (nnn : Addr12) (s : State) : Result := .next { s with i := nnn.zext }.advance

/-- LD B, Vx, `FX33` (R184). -/
def execLdB (x : Reg) (s : State) : Result :=
  guardRange s (s.dataOutOfRange 3)
    { s with mem := Memory.writeBlock s.mem (s.dataAddr 0) (bcdDigits (s.reg x)) }.advance

/-- LD [I], Vx, `FX55` (R186): V0 to Vx are stored, then I moves past them. -/
def execLdMemVx (x : Reg) (s : State) : Result :=
  guardRange s (s.dataOutOfRange (x.val + 1))
    { s with mem := Memory.writeBlock s.mem (s.dataAddr 0) (s.regsUpTo x),
             i := BitVec.ofNat 16 (s.dataAddr (x.val + 1)) }.advance

/-- LD Vx, [I], `FX65` (R188): V0 to Vx are loaded, then I moves past them. -/
def execLdVxMem (x : Reg) (s : State) : Result :=
  guardRange s (s.dataOutOfRange (x.val + 1))
    { s with v := loadRegs s.mem (s.dataAddr 0) (x.val + 1) s.v,
             i := BitVec.ofNat 16 (s.dataAddr (x.val + 1)) }.advance

end Sys2Proof.Machine
end

