-- ==== Sys2Proof/Machine/Events.lean ====
section
/-! DEFINITION. The dispatch cycle (30_encoding.md R100, R101) and the host's events and outputs (10_state.md R45 to R54). -/

namespace Sys2Proof.Machine

/-! ## The cycle -/

/-- The word at an address, big-endian (20_memory.md R64). -/
def fetchWord (m : Memory) (a : Nat) : Word := wordOfBytes (Memory.read m a) (Memory.read m (a + 1))

/-- `run_one()` (R101): the two fetch checks, the fetch, decode, execute; so the order of faults is that of
60_exceptions.md R259. -/
def runOne (s : State) : Result :=
  match firstOutOfRange s.pc.toNat 2 with
  | some a => raise (.outOfBoundsAccess (BitVec.ofNat 16 a) s.pc) s
  | none =>
    match decode (fetchWord s.mem s.pc.toNat) with
    | .error _ => raise (.unknownOpcode (fetchWord s.mem s.pc.toNat) s.pc) s
    | .ok i => exec i s

/-- A cycle once LOAD_OPEN is cleared, by MODE (R100). -/
def dispatchByMode (s : State) : Result :=
  match s.mode with
  | .running => runOne s
  | .waitingForKey t => pollKeys t s
  | .halted _ => .refused .cycleWhileHalted

/-- `cycle()` (R100; 10_state.md R48). -/
def cycle (s : State) : Result := dispatchByMode { s with loadOpen := false }

/-! ## The other events -/

/-- `if T > 0: T <- T - 1` (10_state.md R52). -/
def decTimer (b : Byte) : Byte := BitVec.ofNat 8 (b.toNat - 1)

/-- `timer_tick()` (R52), in every mode. -/
def timerTick (s : State) : Result := .next { s with dt := decTimer s.dt, st := decTimer s.st }

/-- `set_key_state(k, pressed)` (R49), in every mode; a k outside 0..15 is refused. -/
def setKeyState (k : Nat) (pressed : Bool) (s : State) : Result :=
  if h : k < 16 then .next { s with key := s.key.set k pressed h } else .refused .noSuchKey

/-- `load_program(bytes)` (R47): all or nothing, and only while LOAD_OPEN. -/
def loadProgram (bytes : List Byte) (s : State) : Result :=
  if s.loadOpen then
    if bytes.length > Config.maxProgram then
      raise (.programTooLarge bytes.length) { s with loadOpen := false }
    else .next { s with loadOpen := false, mem := Memory.writeBlock s.mem Config.programBase bytes }
  else .refused .loadNotOpen

/-- One event (R50). A snapshot writes no state (R51). -/
def runEvent (e : Event) (s : State) : Result :=
  match e with
  | .reset => .next (hostReset s)
  | .loadProgram bytes => loadProgram bytes s
  | .cycle => cycle s
  | .timerTick => timerTick s
  | .setKeyState k pressed => setKeyState k pressed s
  | .snapshot => .next s

/-- The next event of SCHEDULE (R50): the oldest one of the list; when the list is empty, a cycle (log 2). -/
def nextEvent (s : State) : Result :=
  match s.schedule with
  | [] => cycle s
  | e :: rest => runEvent e { s with schedule := rest }

/-! ## The outputs -/

/-- Rows as one number, the first row lowest. -/
def rowsToNat : List (BitVec 64) → Nat
  | [] => 0
  | r :: rest => r.toNat + 2 ^ 64 * rowsToNat rest

/-- What `snapshot()` returns (R51): bit `y*64 + x` is `FB[x][y]`. -/
def State.snapshot (s : State) : BitVec 2048 := BitVec.ofNat 2048 (rowsToNat s.fb.toList)

/-- `sound_active` (R53). -/
def State.soundActive (s : State) : Bool := decide (s.st.toNat > 0)

/-- `status` (R54): MODE, with the fault record in it when Halted, and pc. -/
def State.status (s : State) : Mode × Word := (s.mode, s.pc)

/-! ## Placing a word for the next fetch -/

/-- The state in which the next step is a cycle in mode Running that fetches two bytes inside memory: pc moves to the entry
point only if no word can be fetched at it, and a cycle is put before events that are pending (log 4). -/
def State.readyToFetch (s : State) : State :=
  { s with
    pc := if s.pc.toNat + 1 < Config.memSize then s.pc else BitVec.ofNat 16 Config.programBase
    mode := .running
    schedule := match s.schedule with
      | [] => []
      | pending => .cycle :: pending }

/-- A word stored at pc, big-endian (20_memory.md R64). -/
def State.placeWord (s : State) (op : Word) : State :=
  { s with mem := Memory.writeBlock s.mem s.pc.toNat [hiByte op, loByte op] }

end Sys2Proof.Machine
end

