-- ==== Sys2Proof/Machine/Step.lean ====
section
/-! DEFINITION. One step of the core: one event of SCHEDULE (10_state.md R50). -/

namespace Sys2Proof.Machine

/-- One atomic event: the oldest one pending, or a cycle when none is (log 2). -/
def step (s : State) : Host.Outcome State Fault Refusal := nextEvent s

/-- `s` with the instruction whose bits are `w` (as spec/opcode_table.json numbers them) stored where the next step fetches,
so that the next step runs it (log 4). -/
def State.withFetchWord (s : State) (nbits w : Nat) : State :=
  s.readyToFetch.placeWord (BitVec.ofNat 16 (w % 2 ^ nbits))

end Sys2Proof.Machine
end

