-- ==== Sys2Proof/Safety.lean ====
section
/-! DEFINITION. What statements about the core are said in: the next state of an outcome, frames, the events of a step, and
the invariant of the core. -/

namespace Sys2Proof.Machine

/-! ## Outcomes -/

/-- The outcome is a next state, and that state meets `P`. -/
def Completes (o : Result) (P : State → Prop) : Prop := ∃ t, o = .next t ∧ P t

/-- The next state, if there is one. -/
def nextState? : Result → Option State
  | .next s => some s
  | .fault _ => none
  | .refused _ => none

/-- The outcome with `f` applied to its next state. -/
def mapNext (f : State → State) : Result → Result
  | .next s => .next (f s)
  | .fault r => .fault r
  | .refused r => .refused r

/-- Instructions executed one after another, stopping at the first outcome that is no next state. -/
def execAll : List Instr → State → Result
  | [], s => .next s
  | i :: rest, s =>
    match exec i s with
    | .next t => execAll rest t
    | .fault r => .fault r
    | .refused r => .refused r

/-! ## Frames -/

/-- The fields of State. -/
inductive Field where
  | v | i | pc | sp | stack | dt | st | fb | key | mem | mode | loadOpen | draws | schedule
  deriving DecidableEq, Repr

/-- `t` is as `s` in every field that is not named. Memory is compared byte by byte, through the read of one byte. -/
structure ChangesOnly (named : List Field) (s t : State) : Prop where
  v : Field.v ∉ named → ∀ r, t.reg r = s.reg r
  i : Field.i ∉ named → t.i = s.i
  pc : Field.pc ∉ named → t.pc = s.pc
  sp : Field.sp ∉ named → t.sp = s.sp
  stack : Field.stack ∉ named → t.stack = s.stack
  dt : Field.dt ∉ named → t.dt = s.dt
  st : Field.st ∉ named → t.st = s.st
  fb : Field.fb ∉ named → t.fb = s.fb
  key : Field.key ∉ named → t.key = s.key
  mem : Field.mem ∉ named → ∀ a, Memory.read t.mem a = Memory.read s.mem a
  mode : Field.mode ∉ named → t.mode = s.mode
  loadOpen : Field.loadOpen ∉ named → t.loadOpen = s.loadOpen
  draws : Field.draws ∉ named → t.draws = s.draws
  schedule : Field.schedule ∉ named → t.schedule = s.schedule

/-! ## Which event a step is -/

/-- The next step is a cycle: one is due, or no event is pending. -/
abbrev State.nextIsCycle (s : State) : Prop := s.schedule = [] ∨ s.schedule.head? = some .cycle

/-- The state a cycle hands to its instruction or poll: LOAD_OPEN cleared and the event taken off the schedule. -/
def State.inCycle (s : State) : State := { s with loadOpen := false, schedule := s.schedule.tail }

/-- The next step executes instruction `i`: a cycle in mode Running whose two bytes are in memory and decode to `i`. -/
abbrev State.executesNext (s : State) (i : Instr) : Prop :=
  s.nextIsCycle ∧ s.mode = .running ∧ s.pc.toNat + 1 < 4096 ∧
    decode (Memory.read s.mem s.pc.toNat ++ Memory.read s.mem (s.pc.toNat + 1)) = .ok i

/-! ## Sprites -/

/-- The sprite of `DXYN` in state `s` has a 1 bit at cell (px, py): row r and column c of it, wrapped on both axes
(45_display.md R207, R209, R211). -/
def State.spritePaints (s : State) (x y : Reg) (n : Fin 16) (px py : Nat) : Prop :=
  ∃ r < n.val, ∃ c < 8, (Memory.read s.mem (s.dataAddr r)).getLsbD (7 - c) = true ∧
    px = ((s.reg x).toNat + c) % 64 ∧ py = ((s.reg y).toNat + r) % 32

/-! ## The invariant -/

/-- The `pc` field of a fault record, for the kinds that have one (R35). -/
def FaultRecord.pc? : FaultRecord → Option Word
  | .unknownOpcode _ pc | .outOfBoundsAccess _ pc | .stackOverflow _ pc | .stackUnderflow _ pc => some pc
  | .programTooLarge _ => none

/-- What holds of every state the core reaches, under every schedule. -/
structure State.Inv (s : State) : Prop where
  /-- memory is in its canonical form -/
  memCanonical : Memory.wf s.mem = true
  /-- no instruction writes a pc above 0x10FE (10_state.md R25) -/
  pcBounded : s.pc.toNat ≤ 0x10FE
  /-- a pushed address is at most 0x1000 (40_control_transfer.md R121) -/
  stackBounded : ∀ j (h : j < 16), (s.stack[j]).toNat ≤ 0x1000
  /-- while waiting, pc still holds the address of the FX0A (46_keypad.md R223) -/
  waitsAtItsInstruction : ∀ t, s.mode = .waitingForKey t →
    s.pc.toNat + 1 < 4096 ∧ fetchWord s.mem s.pc.toNat = encode (.ldVxK t)
  /-- once halted, pc still holds the faulting address of the record (60_exceptions.md R256) -/
  haltsAtItsFault : ∀ f p, s.mode = .halted f → f.pc? = some p → s.pc = p
  /-- while a program may still be loaded, the core is as reset left it, but for the keys (10_state.md R36) -/
  freshWhileLoadOpen : s.loadOpen = true →
    s = { State.reset with key := s.key, draws := s.draws, schedule := s.schedule }

end Sys2Proof.Machine
end

