-- ==== Sys2Proof/Certificates/Slice0/Obligations.lean ====
section
/-! DEFINITION. The statements for the provers, from the numbered rules of spec/. `Completes o P` says that the outcome `o`
is a next state and that the state meets `P`; `ChangesOnly fields s t` is the frame (Sys2Proof/Safety.lean). -/

open Sys2Proof Sys2Proof.Machine

/-! ## Encoding -/

/-- 30_encoding.md sections 2 to 4: no bit of an encoding is dropped. Most of the encodings are general knowledge in the
spec (log 6). -/
def Obligations.DecodeOfEncodeIsTheInstruction : Prop :=
  ∀ i : Instr, i.wellFormed = true → decode (encode i) = .ok i

/-- 30_encoding.md section 4: each word has one meaning, and what it decodes to is well formed. The encodings: log 6. -/
def Obligations.EncodeOfDecodeIsTheWord : Prop :=
  ∀ (op : Word) (i : Instr), decode op = .ok i → encode i = op ∧ i.wellFormed = true

/-- The undefined words of 30_encoding.md section 4, row by row (row 0 is SYS, `SysRaisesUnknownOpcode`); which words these
are is general knowledge in the spec (log 6). -/
def Obligations.RejectedWordsAreTheUndefinedRows : Prop :=
  ∀ op : Word, (∃ e, decode op = .error e) ↔
    (op.toNat / 4096 = 0x5 ∧ op.toNat % 16 ≠ 0) ∨
    (op.toNat / 4096 = 0x8 ∧ op.toNat % 16 ∈ [0x8, 0x9, 0xA, 0xB, 0xC, 0xD, 0xF]) ∨
    (op.toNat / 4096 = 0x9 ∧ op.toNat % 16 ≠ 0) ∨
    (op.toNat / 4096 = 0xE ∧ op.toNat % 256 ∉ [0x9E, 0xA1]) ∨
    (op.toNat / 4096 = 0xF ∧ op.toNat % 256 ∉ [0x07, 0x0A, 0x15, 0x18, 0x1E, 0x29, 0x33, 0x55, 0x65])

/-- Words written out from the formats and the table of 30_encoding.md, most of them general knowledge there (log 6). -/
def Obligations.DecodeReadsWordsWrittenOut : Prop :=
  decode 0b0000000011100000#16 = .ok .cls ∧
  decode 0b0000000011101110#16 = .ok .ret ∧
  decode 0b0000000100100011#16 = .ok (.sys 0x123#12) ∧
  decode 0b1011001100000000#16 = .ok (.jpV0 0x300#12) ∧
  decode 0b0011001101000010#16 = .ok (.seImm 3 0x42#8) ∧
  decode 0b1000111100101110#16 = .ok (.shlReg 15 2) ∧
  decode 0b1101000100100101#16 = .ok (.drw 1 2 5) ∧
  decode 0b1110000110100001#16 = .ok (.sknp 1) ∧
  decode 0b1111010000001010#16 = .ok (.ldVxK 4) ∧
  decode 0b1111001001100101#16 = .ok (.ldVxMem 2)

/-! ## The cycle -/

/-- 30_encoding.md section 6: a Running cycle executes the instruction at pc, fetched big-endian, on the state with
LOAD_OPEN cleared; nothing else is added around `exec`. That the cycle is taken off a list of events is the model's choice
(log 2). -/
def Obligations.StepRunsTheDecodedInstruction : Prop :=
  ∀ (s : State) (i : Instr), s.executesNext i → step s = exec i s.inCycle

/-- 20_memory.md section 4 and 92_eei_decisions.md D14, D23: the fetch faults, the lower address first. -/
def Obligations.FetchOutsideMemoryHalts : Prop :=
  ∀ s : State, s.nextIsCycle → s.mode = .running →
    (4096 ≤ s.pc.toNat →
      step s = .next { s.inCycle with mode := .halted (.outOfBoundsAccess s.pc s.pc) }) ∧
    (s.pc.toNat = 0xFFF →
      step s = .next { s.inCycle with mode := .halted (.outOfBoundsAccess 0x1000#16 s.pc) })

/-- 60_exceptions.md section 1, UnknownOpcode: the fault carries the raw word and the pc of the fetch, and dispatch is halted:
a further cycle is refused. 0xFFFF is such a word. Choices: that SYS words are such words (92_eei_decisions.md D15, log 6); that
but for MODE only LOAD_OPEN, cleared, and the list of events change (D21 and LOAD_OPEN: log 12; the list: log 2). -/
def Obligations.UnknownWordHaltsWithWordAndPc : Prop :=
  (∃ e, decode 0xFFFF#16 = .error e) ∧
  ∀ (s : State) (op : Word), s.nextIsCycle → s.mode = .running → s.pc.toNat + 1 < 4096 →
    op = Memory.read s.mem s.pc.toNat ++ Memory.read s.mem (s.pc.toNat + 1) →
    ((∃ e, decode op = .error e) ∨ (∃ nnn, decode op = .ok (.sys nnn))) →
    Completes (step s) fun t =>
      t.mode = .halted (.unknownOpcode op s.pc) ∧ t.schedule = s.schedule.tail ∧ t.loadOpen = false ∧
      ChangesOnly [.mode, .schedule, .loadOpen] s t ∧
      (t.nextIsCycle → step t = .refused .cycleWhileHalted)

/-- 46_keypad.md section on the poll, 92_eei_decisions.md D20: nothing while no key is pressed; else the smallest pressed
key goes to the target register and the core runs on after the FX0A. -/
def Obligations.PollStoresTheSmallestPressedKey : Prop :=
  ∀ (s : State) (x : Reg), s.nextIsCycle → s.mode = .waitingForKey x →
    ((∀ k (h : k < 16), s.key[k] = false) → step s = .next s.inCycle) ∧
    (∀ k (h : k < 16), s.key[k] = true → (∀ j (hj : j < k), s.key[j] = false) →
      Completes (step s) fun t =>
        (t.reg x).toNat = k ∧ (∀ r, r ≠ x → t.reg r = s.reg r) ∧
        t.mode = .running ∧ t.pc = s.pc + 2 ∧ t.schedule = s.schedule.tail ∧ t.loadOpen = false ∧
        ChangesOnly [.v, .mode, .pc, .schedule, .loadOpen] s t)

/-- 46_keypad.md, the unbounded wait: with no key pressed, any number of cycles changes nothing, and the run goes on. That
an empty list of events means cycles is the model's choice (log 2). -/
def Obligations.KeyWaitGoesOnWithoutAKey : Prop :=
  ∀ (n : Nat) (s : State) (x : Reg), s.mode = .waitingForKey x → (∀ k (h : k < 16), s.key[k] = false) →
    s.schedule = [] → s.loadOpen = false →
    Host.Core.run Sys2Proof.core n s = .next s

/-- 10_state.md section 11, `cycle()`: the core takes no cycle in Halted, and every cycle it takes sets LOAD_OPEN to
false. -/
def Obligations.HaltedTakesNoCycleAndCyclesCloseTheLoad : Prop :=
  ∀ s : State, s.nextIsCycle →
    (∀ f, s.mode = .halted f → step s = .refused .cycleWhileHalted) ∧
    (∀ t, step s = .next t → t.loadOpen = false)

/-! ## The host's events -/

/-- 10_state.md section 11 (the tick) and 92_eei_decisions.md D3, D32: `n` ticks in a row, in any mode, take `n` off each
timer, stopping at 0, and change nothing else. -/
def Obligations.TicksCountBothTimersDown : Prop :=
  ∀ (n : Nat) (s : State) (rest : List Event), s.schedule = List.replicate n .timerTick ++ rest →
    Completes (Host.Core.run Sys2Proof.core n s) fun t =>
      t.dt.toNat = s.dt.toNat - n ∧ t.st.toNat = s.st.toNat - n ∧ t.schedule = rest ∧
      ChangesOnly [.dt, .st, .schedule] s t

/-- 10_state.md section 11 (key states) and 92_eei_decisions.md D37: one key changes, in any mode; a number above 15 is
refused. -/
def Obligations.SetKeyStateWritesOneKey : Prop :=
  ∀ (s : State) (k : Nat) (b : Bool) (rest : List Event), s.schedule = .setKeyState k b :: rest →
    (k < 16 → Completes (step s) fun t =>
      (∀ j (h : j < 16), t.key[j] = if j = k then b else s.key[j]) ∧ t.schedule = rest ∧
      ChangesOnly [.key, .schedule] s t) ∧
    (16 ≤ k → step s = .refused .noSuchKey)

/-- 10_state.md section 11 (the load) and 92_eei_decisions.md D25: the bytes stand at consecutive addresses from 0x200, all
other memory is as before; a load that is not open is refused. -/
def Obligations.LoadPlacesTheProgram : Prop :=
  ∀ (s : State) (bytes : List Byte) (rest : List Event), s.schedule = .loadProgram bytes :: rest →
    (s.loadOpen = true → bytes.length ≤ 3584 → Completes (step s) fun t =>
      (∀ k (h : k < bytes.length), Memory.read t.mem (0x200 + k) = bytes[k]) ∧
      (∀ a, a < 0x200 ∨ 0x200 + bytes.length ≤ a → Memory.read t.mem a = Memory.read s.mem a) ∧
      t.loadOpen = false ∧ t.schedule = rest ∧ ChangesOnly [.mem, .loadOpen, .schedule] s t) ∧
    (s.loadOpen = false → step s = .refused .loadNotOpen)

/-- 60_exceptions.md section 1, ProgramTooLarge: a load of more than 3584 bytes halts with the length, memory is untouched and
pc is still 0x200 (the invariant is the premise that no cycle has run while LOAD_OPEN). Choices: LOAD_OPEN is false after the
load and no other state changes (92_eei_decisions.md D21, log 12), and the event leaves the list (log 2). -/
def Obligations.ProgramTooLargeHaltsTheLoad : Prop :=
  ∀ (s : State) (bytes : List Byte) (rest : List Event), s.Inv → s.schedule = .loadProgram bytes :: rest →
    s.loadOpen = true → 3584 < bytes.length →
    Completes (step s) fun t =>
      t.mode = .halted (.programTooLarge bytes.length) ∧ t.pc = 0x200#16 ∧ t.loadOpen = false ∧ t.schedule = rest ∧
      ChangesOnly [.mode, .loadOpen, .schedule] s t

/-- 10_state.md section 10, 92_eei_decisions.md D24: what `reset()` leaves, from any state in any mode. The last line is
the model's own two fields (log 1, 2). -/
def Obligations.ResetLeavesTheResetState : Prop :=
  ∀ (s : State) (rest : List Event), s.schedule = .reset :: rest →
    Completes (step s) fun t =>
      (∀ r, t.reg r = 0) ∧ t.i = 0 ∧ t.pc = 0x200#16 ∧ t.sp.val = 0 ∧
      (∀ j (h : j < 16), t.stack[j] = 0) ∧ t.dt = 0 ∧ t.st = 0 ∧
      (∀ px py, t.fb.cell px py = false) ∧ (∀ k (h : k < 16), t.key[k] = false) ∧
      (∀ a, a < 0x050 ∨ 0x0A0 ≤ a → Memory.read t.mem a = 0) ∧
      (∀ k, k < 80 → Memory.read t.mem (0x050 + k) = fontTable.getD k 0) ∧
      t.mode = .running ∧ t.loadOpen = true ∧
      t.draws = s.draws ∧ t.schedule = rest

/-- 10_state.md section 11 (the snapshot), 92_eei_decisions.md D30: bit y*64 + x of the snapshot is cell (x, y), and taking
one writes no state. -/
def Obligations.SnapshotIsRowMajorAndWritesNothing : Prop :=
  (∀ (s : State) (x y : Nat), x < 64 → y < 32 → s.snapshot.getLsbD (y * 64 + x) = s.fb.cell x y) ∧
  (∀ (s : State) (rest : List Event), s.schedule = .snapshot :: rest → step s = .next { s with schedule := rest })

/-! ## Control transfer -/

/-- 40_control_transfer.md, JP addr: with its encoding, its two corner cases and its frame. The last clause gives the whole
state after the fetch fault, which rests on choices: the recorded pc and MODE alone written (92_eei_decisions.md D22, D21, log
12), LOAD_OPEN cleared (log 12), and the event taken off the list (log 2). -/
def Obligations.JpSetsPc : Prop :=
  ∀ (nnn : Addr12) (s : State),
    decode (0x1#4 ++ nnn) = .ok (.jp nnn) ∧
    Completes (exec (.jp nnn) s) fun t =>
      t.pc.toNat = nnn.toNat ∧ ChangesOnly [.pc] s t ∧
      (s.pc.toNat = nnn.toNat → t = s) ∧
      (nnn = 0xFFF#12 → t.mode = .running → t.nextIsCycle →
        step t = .next { t.inCycle with mode := .halted (.outOfBoundsAccess 0x1000#16 0xFFF#16) })

/-- R121, with its encoding: a call with room pushes pc + 2; with SP = 16 it raises StackOverflow and writes nothing. -/
def Obligations.CallPushesOrOverflows : Prop :=
  ∀ (nnn : Addr12) (s : State),
    decode (0x2#4 ++ nnn) = .ok (.call nnn) ∧
    (∀ h : s.sp.val < 16, Completes (exec (.call nnn) s) fun t =>
      t.stack[s.sp.val] = s.pc + 2 ∧ (∀ j (hj : j < 16), j ≠ s.sp.val → t.stack[j] = s.stack[j]) ∧
      t.sp.val = s.sp.val + 1 ∧ t.pc.toNat = nnn.toNat ∧ ChangesOnly [.stack, .sp, .pc] s t) ∧
    (s.sp.val = 16 → exec (.call nnn) s = .next { s with mode := .halted (.stackOverflow (0x2#4 ++ nnn) s.pc) })

/-- R124 and R125, with the encoding: a return pops into pc and keeps the entry; with SP = 0 it raises StackUnderflow and
writes nothing. -/
def Obligations.RetPopsOrUnderflows : Prop :=
  decode 0x00EE#16 = .ok .ret ∧
  ∀ s : State,
    (∀ h : 0 < s.sp.val, Completes (exec .ret s) fun t =>
      t.sp.val = s.sp.val - 1 ∧ t.pc = s.stack[s.sp.val - 1]'(by have := s.sp.isLt; omega) ∧
      ChangesOnly [.sp, .pc] s t) ∧
    (s.sp.val = 0 → exec .ret s = .next { s with mode := .halted (.stackUnderflow 0x00EE#16 s.pc) })

/-- 40_control_transfer.md, the corner case of RET: after a call, a return with the stack as the call left it resumes at
the instruction after the call. -/
def Obligations.RetResumesAfterTheCall : Prop :=
  ∀ (nnn : Addr12) (s : State), s.sp.val < 16 →
    Completes (exec (.call nnn) s) fun t =>
      ∀ u : State, u.sp = t.sp → u.stack = t.stack →
        Completes (exec .ret u) fun w => w.pc = s.pc + 2 ∧ w.sp = s.sp

/-- R122, the source's property: from an empty stack sixteen nested calls succeed, and a seventeenth raises StackOverflow
and leaves everything as before the attempt. -/
def Obligations.SixteenNestedCallsSucceed : Prop :=
  ∀ (s : State) (targets : List Addr12) (nnn : Addr12), s.sp.val = 0 → targets.length = 16 →
    Completes (execAll (targets.map .call) s) fun t =>
      t.sp.val = 16 ∧ t.mode = s.mode ∧
      exec (.call nnn) t = .next { t with mode := .halted (.stackOverflow (encode (.call nnn)) t.pc) }

/-- 40_control_transfer.md, BNNN, and 92_eei_decisions.md D12: the target is NNN + V0 exactly. -/
def Obligations.JpV0AddsV0 : Prop :=
  ∀ (nnn : Addr12) (s : State),
    Completes (exec (.jpV0 nnn) s) fun t =>
      t.pc.toNat = nnn.toNat + (s.reg 0).toNat ∧ ChangesOnly [.pc] s t

/-- 40_control_transfer.md, SYS, and 92_eei_decisions.md D15: its whole effect is the fault, with the raw word. -/
def Obligations.SysRaisesUnknownOpcode : Prop :=
  ∀ (nnn : Addr12) (s : State),
    (nnn ≠ 0x0E0#12 → nnn ≠ 0x0EE#12 → decode (0x0#4 ++ nnn) = .ok (.sys nnn)) ∧
    Completes (exec (.sys nnn) s) fun t =>
      t.mode = .halted (.unknownOpcode (0x0#4 ++ nnn) s.pc) ∧ ChangesOnly [.mode] s t

/-! ## Skips -/

/-- 41_conditional_skip.md, the four skips, with their encodings (general knowledge in the spec, log 6): pc + 4 when the
condition holds, pc + 2 when not, and nothing else; 5XYn and 9XYn with n not 0 are no instruction. -/
def Obligations.RegisterSkipsAdvanceByFourOrTwo : Prop :=
  ∀ (x y : Reg) (nn : Byte) (s : State),
    (decode (0x3#4 ++ nibble x ++ nn) = .ok (.seImm x nn) ∧
      Completes (exec (.seImm x nn) s) fun t =>
        t.pc = (if s.reg x = nn then s.pc + 4 else s.pc + 2) ∧ ChangesOnly [.pc] s t) ∧
    (decode (0x4#4 ++ nibble x ++ nn) = .ok (.sneImm x nn) ∧
      Completes (exec (.sneImm x nn) s) fun t =>
        t.pc = (if s.reg x = nn then s.pc + 2 else s.pc + 4) ∧ ChangesOnly [.pc] s t) ∧
    (decode (0x5#4 ++ nibble x ++ nibble y ++ 0x0#4) = .ok (.seReg x y) ∧
      Completes (exec (.seReg x y) s) fun t =>
        t.pc = (if s.reg x = s.reg y then s.pc + 4 else s.pc + 2) ∧ ChangesOnly [.pc] s t) ∧
    (decode (0x9#4 ++ nibble x ++ nibble y ++ 0x0#4) = .ok (.sneReg x y) ∧
      Completes (exec (.sneReg x y) s) fun t =>
        t.pc = (if s.reg x = s.reg y then s.pc + 2 else s.pc + 4) ∧ ChangesOnly [.pc] s t) ∧
    (∀ n : Fin 16, n ≠ 0 →
      (∃ e, decode (0x5#4 ++ nibble x ++ nibble y ++ nibble n) = .error e) ∧
      (∃ e, decode (0x9#4 ++ nibble x ++ nibble y ++ nibble n) = .error e))

/-- 46_keypad.md, the key skips, and 92_eei_decisions.md D18: the key is that of the low nibble of Vx. -/
def Obligations.KeySkipsReadTheKeyOfTheLowNibble : Prop :=
  ∀ (x : Reg) (k : Nat) (hk : k < 16) (s : State), (s.reg x).toNat % 16 = k →
    (Completes (exec (.skp x) s) fun t =>
      t.pc = (if s.key[k] = true then s.pc + 4 else s.pc + 2) ∧ ChangesOnly [.pc] s t) ∧
    (Completes (exec (.sknp x) s) fun t =>
      t.pc = (if s.key[k] = true then s.pc + 2 else s.pc + 4) ∧ ChangesOnly [.pc] s t)

/-! ## Arithmetic and logic -/

/-- 42_arithmetic.md section 2 and 92_eei_decisions.md D10: 7XNN wraps and sets no flag (VF changes only as the
destination). -/
def Obligations.AddImmediateWrapsWithoutFlag : Prop :=
  ∀ (x : Reg) (nn : Byte) (s : State),
    Completes (exec (.addImm x nn) s) fun t =>
      (t.reg x).toNat = ((s.reg x).toNat + nn.toNat) % 256 ∧ (∀ r, r ≠ x → t.reg r = s.reg r) ∧
      t.pc = s.pc + 2 ∧ ChangesOnly [.v, .pc] s t

/-- 42_arithmetic.md section 3 and 92_eei_decisions.md D7, D9: OR, AND, XOR bit by bit, and VF cleared last. -/
def Obligations.LogicalOperationsClearVF : Prop :=
  ∀ (x y : Reg) (s : State),
    ∀ c ∈ [(Instr.orReg x y, (fun a b => a || b : Bool → Bool → Bool)), (Instr.andReg x y, fun a b => a && b),
        (Instr.xorReg x y, fun a b => a != b)],
      Completes (exec c.1 s) fun t =>
        t.reg 15 = 0 ∧
        (x ≠ 15 → ∀ k < 8, (t.reg x).getLsbD k = c.2 ((s.reg x).getLsbD k) ((s.reg y).getLsbD k)) ∧
        (∀ r, r ≠ x → r ≠ 15 → t.reg r = s.reg r) ∧
        t.pc = s.pc + 2 ∧ ChangesOnly [.v, .pc] s t

/-- R156, with its encoding: the truncated sum, VF the carry, and with x = F the carry wins. -/
def Obligations.AddRegistersSetsCarry : Prop :=
  ∀ (x y : Reg) (s : State),
    decode (0x8#4 ++ nibble x ++ nibble y ++ 0x4#4) = .ok (.addReg x y) ∧
    Completes (exec (.addReg x y) s) fun t =>
      (x ≠ 15 → (t.reg x).toNat = ((s.reg x).toNat + (s.reg y).toNat) % 256) ∧
      (t.reg 15).toNat = (if (s.reg x).toNat + (s.reg y).toNat > 255 then 1 else 0) ∧
      (∀ r, r ≠ x → r ≠ 15 → t.reg r = s.reg r) ∧
      t.pc = s.pc + 2 ∧ ChangesOnly [.v, .pc] s t

/-- 42_arithmetic.md section 3, 8XY5 and 8XY7, with their encodings (general knowledge in the spec, log 6): the difference
modulo 256, VF 1 iff no borrow, the flag winning with x = F. -/
def Obligations.SubtractionsSetNoBorrow : Prop :=
  ∀ (x y : Reg) (s : State),
    (decode (0x8#4 ++ nibble x ++ nibble y ++ 0x5#4) = .ok (.subReg x y) ∧
      Completes (exec (.subReg x y) s) fun t =>
        (x ≠ 15 → ((t.reg x).toNat : Int) = (((s.reg x).toNat : Int) - (s.reg y).toNat) % 256) ∧
        (t.reg 15).toNat = (if (s.reg y).toNat ≤ (s.reg x).toNat then 1 else 0) ∧
        (∀ r, r ≠ x → r ≠ 15 → t.reg r = s.reg r) ∧
        t.pc = s.pc + 2 ∧ ChangesOnly [.v, .pc] s t) ∧
    (decode (0x8#4 ++ nibble x ++ nibble y ++ 0x7#4) = .ok (.subnReg x y) ∧
      Completes (exec (.subnReg x y) s) fun t =>
        (x ≠ 15 → ((t.reg x).toNat : Int) = (((s.reg y).toNat : Int) - (s.reg x).toNat) % 256) ∧
        (t.reg 15).toNat = (if (s.reg x).toNat ≤ (s.reg y).toNat then 1 else 0) ∧
        (∀ r, r ≠ x → r ≠ 15 → t.reg r = s.reg r) ∧
        t.pc = s.pc + 2 ∧ ChangesOnly [.v, .pc] s t)

/-- 42_arithmetic.md section 3 and 92_eei_decisions.md D6, D9: the source of a shift is Vy, VF the bit shifted out. -/
def Obligations.ShiftsTakeVyAndMoveABitOut : Prop :=
  ∀ (x y : Reg) (s : State),
    (Completes (exec (.shrReg x y) s) fun t =>
        (x ≠ 15 → (t.reg x).toNat = (s.reg y).toNat / 2) ∧ (t.reg 15).toNat = (s.reg y).toNat % 2 ∧
        (∀ r, r ≠ x → r ≠ 15 → t.reg r = s.reg r) ∧
        t.pc = s.pc + 2 ∧ ChangesOnly [.v, .pc] s t) ∧
    (Completes (exec (.shlReg x y) s) fun t =>
        (x ≠ 15 → (t.reg x).toNat = (s.reg y).toNat * 2 % 256) ∧ (t.reg 15).toNat = (s.reg y).toNat / 128 ∧
        (∀ r, r ≠ x → r ≠ 15 → t.reg r = s.reg r) ∧
        t.pc = s.pc + 2 ∧ ChangesOnly [.v, .pc] s t)

/-- 42_arithmetic.md section 4 and 92_eei_decisions.md D11: I wraps at 16 bits, no flag, no fault. -/
def Obligations.AddToIWrapsAtSixteenBits : Prop :=
  ∀ (x : Reg) (s : State),
    Completes (exec (.addI x) s) fun t =>
      t.i.toNat = (s.i.toNat + (s.reg x).toNat) % 65536 ∧ t.pc = s.pc + 2 ∧ ChangesOnly [.i, .pc] s t

/-! ## Transfer -/

/-- 43_transfer.md, 6XNN and ANNN, with their encodings (general knowledge in the spec, log 6). -/
def Obligations.ImmediatesAreLoaded : Prop :=
  ∀ (x : Reg) (nn : Byte) (nnn : Addr12) (s : State),
    (decode (0x6#4 ++ nibble x ++ nn) = .ok (.ldImm x nn) ∧
      Completes (exec (.ldImm x nn) s) fun t =>
        t.reg x = nn ∧ (∀ r, r ≠ x → t.reg r = s.reg r) ∧ t.pc = s.pc + 2 ∧ ChangesOnly [.v, .pc] s t) ∧
    (decode (0xA#4 ++ nnn) = .ok (.ldI nnn) ∧
      Completes (exec (.ldI nnn) s) fun t =>
        t.i.toNat = nnn.toNat ∧ t.pc = s.pc + 2 ∧ ChangesOnly [.i, .pc] s t)

/-- 43_transfer.md, 8XY0, and 92_eei_decisions.md D7: a copy, and VF is not cleared. -/
def Obligations.CopyKeepsVF : Prop :=
  ∀ (x y : Reg) (s : State),
    Completes (exec (.ldReg x y) s) fun t =>
      t.reg x = s.reg y ∧ (∀ r, r ≠ x → t.reg r = s.reg r) ∧ t.pc = s.pc + 2 ∧ ChangesOnly [.v, .pc] s t

/-- 43_transfer.md, FX33, with its encoding (log 6; the digit order is general knowledge in the spec, log 7): hundreds,
tens and ones at I, I + 1, I + 2, every other byte as before; out of range, the fault and nothing written. -/
def Obligations.BcdStoresThreeDigits : Prop :=
  ∀ (x : Reg) (s : State),
    decode (0xF#4 ++ nibble x ++ 0x33#8) = .ok (.ldB x) ∧
    (s.i.toNat + 2 < 4096 → Completes (exec (.ldB x) s) fun t =>
      (Memory.read t.mem (s.dataAddr 0)).toNat = (s.reg x).toNat / 100 ∧
      (Memory.read t.mem (s.dataAddr 1)).toNat = (s.reg x).toNat / 10 % 10 ∧
      (Memory.read t.mem (s.dataAddr 2)).toNat = (s.reg x).toNat % 10 ∧
      (∀ a, (∀ k < 3, a ≠ s.dataAddr k) → Memory.read t.mem a = Memory.read s.mem a) ∧
      t.pc = s.pc + 2 ∧ ChangesOnly [.mem, .pc] s t) ∧
    (4096 ≤ s.i.toNat + 2 → exec (.ldB x) s = .next { s with
      mode := .halted (.outOfBoundsAccess (if 4096 ≤ s.i.toNat then s.i else 0x1000#16) s.pc) })

/-- 43_transfer.md, FX55, and 92_eei_decisions.md D8: V0 to Vx at I to I + x, every other byte as before, and I moved past
them. -/
def Obligations.BlockStoreWritesV0ToVx : Prop :=
  ∀ (x : Reg) (s : State), s.i.toNat + x.val < 4096 →
    Completes (exec (.ldMemVx x) s) fun t =>
      (∀ r : Reg, r ≤ x → Memory.read t.mem (s.dataAddr r.val) = s.reg r) ∧
      (∀ a, (∀ k ≤ x.val, a ≠ s.dataAddr k) → Memory.read t.mem a = Memory.read s.mem a) ∧
      t.i.toNat = s.i.toNat + x.val + 1 ∧ t.pc = s.pc + 2 ∧ ChangesOnly [.mem, .i, .pc] s t

/-- 43_transfer.md, FX65, and 92_eei_decisions.md D8: V0 to Vx from I to I + x, no other register, and I moved past them. -/
def Obligations.BlockLoadReadsV0ToVx : Prop :=
  ∀ (x : Reg) (s : State), s.i.toNat + x.val < 4096 →
    Completes (exec (.ldVxMem x) s) fun t =>
      (∀ r : Reg, r ≤ x → t.reg r = Memory.read s.mem (s.dataAddr r.val)) ∧
      (∀ r : Reg, x < r → t.reg r = s.reg r) ∧
      t.i.toNat = s.i.toNat + x.val + 1 ∧ t.pc = s.pc + 2 ∧ ChangesOnly [.v, .i, .pc] s t

/-- 43_transfer.md, FX55 and FX65 together: a block stored and loaded back from the same I gives the registers their
stored values, whatever they held in between. -/
def Obligations.BlockStoreThenLoadRestores : Prop :=
  ∀ (x : Reg) (s : State) (between : Vector Byte 16), s.i.toNat + x.val < 4096 →
    Completes (exec (.ldMemVx x) s) fun t =>
      Completes (exec (.ldVxMem x) { t with i := s.i, v := between }) fun u =>
        ∀ r : Reg, r ≤ x → u.reg r = s.reg r

/-- 20_memory.md section 7 and 92_eei_decisions.md D35: the word fetched inside a block just stored is made of the stored
registers, the lower address its high byte. -/
def Obligations.FetchSeesTheStoredBlock : Prop :=
  ∀ (x r q : Reg) (s : State), s.i.toNat + x.val < 4096 → q.val = r.val + 1 → q ≤ x →
    Completes (exec (.ldMemVx x) s) fun t =>
      fetchWord t.mem (s.dataAddr r.val) = s.reg r ++ s.reg q

/-- 20_memory.md sections 2 and 3, 92_eei_decisions.md D21, D22: FX33, FX55, FX65 and DXYN with a byte out of range record
the lowest such address and write nothing else. -/
def Obligations.DataAccessOutOfRangeHalts : Prop :=
  ∀ (x y : Reg) (n : Fin 16) (s : State),
    ∀ c ∈ [(Instr.ldB x, 3), (Instr.ldMemVx x, x.val + 1), (Instr.ldVxMem x, x.val + 1), (Instr.drw x y n, n.val)],
      0 < c.2 → 4096 < s.i.toNat + c.2 →
      exec c.1 s = .next { s with
        mode := .halted (.outOfBoundsAccess (if 4096 ≤ s.i.toNat then s.i else 0x1000#16) s.pc) }

/-! ## Random, timers, font -/

/-- 44_random.md, CXNN, with its encoding (general knowledge in the spec, log 6): for whatever byte `r` the draw gives, Vx
takes `r & nn`; so the bits where nn has a 0 are 0, nn = 0 gives 0 and nn = 0xFF gives the draw. One draw is used up (the
count of draws is the model's own, log 1). Nothing is said of the draw's value. -/
def Obligations.RandomIsTheMaskedDraw : Prop :=
  ∀ (x : Reg) (nn : Byte) (s : State),
    decode (0xC#4 ++ nibble x ++ nn) = .ok (.rnd x nn) ∧
    Completes (exec (.rnd x nn) s) fun t =>
      (∀ k < 8, (t.reg x).getLsbD k = ((Config.random s.draws).getLsbD k && nn.getLsbD k)) ∧
      (nn = 0 → t.reg x = 0) ∧ (nn = 0xFF#8 → t.reg x = Config.random s.draws) ∧
      (∀ r, r ≠ x → t.reg r = s.reg r) ∧ t.draws = s.draws + 1 ∧
      t.pc = s.pc + 2 ∧ ChangesOnly [.v, .draws, .pc] s t

/-- 47_timers.md, with the encodings (general knowledge in the spec, log 6), and what FX18 does to `sound_active`. -/
def Obligations.TimersAreReadAndSet : Prop :=
  ∀ (x : Reg) (s : State),
    (decode (0xF#4 ++ nibble x ++ 0x07#8) = .ok (.ldVxDT x) ∧
      Completes (exec (.ldVxDT x) s) fun t =>
        t.reg x = s.dt ∧ (∀ r, r ≠ x → t.reg r = s.reg r) ∧ t.pc = s.pc + 2 ∧ ChangesOnly [.v, .pc] s t) ∧
    (decode (0xF#4 ++ nibble x ++ 0x15#8) = .ok (.ldDTVx x) ∧
      Completes (exec (.ldDTVx x) s) fun t =>
        t.dt = s.reg x ∧ t.pc = s.pc + 2 ∧ ChangesOnly [.dt, .pc] s t) ∧
    (decode (0xF#4 ++ nibble x ++ 0x18#8) = .ok (.ldSTVx x) ∧
      Completes (exec (.ldSTVx x) s) fun t =>
        t.st = s.reg x ∧ (t.soundActive = true ↔ 0 < (s.reg x).toNat) ∧
        t.pc = s.pc + 2 ∧ ChangesOnly [.st, .pc] s t)

/-- 48_font.md and 92_eei_decisions.md D4, D5 (the font bytes are general knowledge in the spec, log 5): the address of the
glyph of the low nibble, always in 0x050..0x09B, and the five bytes that stand from there on after reset are that glyph's
rows, each glyph here written as one number of five bytes. -/
def Obligations.FontAddressIsTheGlyph : Prop :=
  ∀ (x : Reg) (s : State),
    Completes (exec (.ldF x) s) fun t =>
      t.i.toNat = 0x050 + 5 * ((s.reg x).toNat % 16) ∧ t.i.toNat ≤ 0x09B ∧
      (∀ r : Fin 5, Memory.read State.reset.mem (t.i.toNat + r.val) =
        (([0xF0909090F0#40, 0x2060202070#40, 0xF010F080F0#40, 0xF010F010F0#40, 0x9090F01010#40, 0xF080F010F0#40,
           0xF080F090F0#40, 0xF010204040#40, 0xF090F090F0#40, 0xF090F010F0#40, 0xF090F09090#40, 0xE090E090E0#40,
           0xF0808080F0#40, 0xE0909090E0#40, 0xF080F080F0#40, 0xF080F08080#40] : List (BitVec 40)).getD
          ((s.reg x).toNat % 16) 0).extractLsb' (8 * (4 - r.val)) 8) ∧
      t.pc = s.pc + 2 ∧ ChangesOnly [.i, .pc] s t

/-! ## Display and keypad -/

/-- R205, with its encoding. -/
def Obligations.ClsClearsEveryCell : Prop :=
  decode 0x00E0#16 = .ok .cls ∧
  ∀ s : State, Completes (exec .cls s) fun t =>
    (∀ px py, t.fb.cell px py = false) ∧ t.pc = s.pc + 2 ∧ ChangesOnly [.fb, .pc] s t

/-- 45_display.md, DXYN, with its encoding (bit 7 leftmost is general knowledge in the spec, the zero height and the wrap
its decisions, log 10): a cell flips exactly when a 1 bit of the sprite lands on it, VF is 1 exactly when a set cell was
unset, a height of 0 draws nothing and reads nothing; out of range, the fault and nothing written. -/
def Obligations.DrawFlipsSpriteCellsAndReportsCollision : Prop :=
  ∀ (x y : Reg) (n : Fin 16) (s : State),
    decode (0xD#4 ++ nibble x ++ nibble y ++ nibble n) = .ok (.drw x y n) ∧
    (n.val = 0 ∨ s.i.toNat + n.val ≤ 4096 → Completes (exec (.drw x y n) s) fun t =>
      (∀ px < 64, ∀ py < 32,
        (s.spritePaints x y n px py → t.fb.cell px py = !s.fb.cell px py) ∧
        (¬ s.spritePaints x y n px py → t.fb.cell px py = s.fb.cell px py)) ∧
      ((∃ px < 64, ∃ py < 32, s.spritePaints x y n px py ∧ s.fb.cell px py = true) → t.reg 15 = 1) ∧
      ((∀ px < 64, ∀ py < 32, s.spritePaints x y n px py → s.fb.cell px py = false) → t.reg 15 = 0) ∧
      (∀ r, r ≠ 15 → t.reg r = s.reg r) ∧
      t.pc = s.pc + 2 ∧ ChangesOnly [.fb, .v, .pc] s t) ∧
    (0 < n.val → 4096 < s.i.toNat + n.val → exec (.drw x y n) s = .next { s with
      mode := .halted (.outOfBoundsAccess (if 4096 ≤ s.i.toNat then s.i else 0x1000#16) s.pc) })

/-- 45_display.md, the example of DXYN in general: the same sprite drawn twice at the same place gives the display back,
and the second draw collides exactly when the first one set a cell. -/
def Obligations.DrawTwiceGivesTheDisplayBack : Prop :=
  ∀ (x y : Reg) (n : Fin 16) (s : State), s.i.toNat + n.val ≤ 4096 →
    Completes (exec (.drw x y n) s) fun t =>
      Completes (exec (.drw x y n) { t with v := s.v }) fun u =>
        u.fb = s.fb ∧
        (u.reg 15 = 1 ↔ ∃ px < 64, ∃ py < 32, s.spritePaints x y n px py ∧ s.fb.cell px py = false)

/-- 46_keypad.md, FX0A, and 92_eei_decisions.md D19: the wait is entered, pc stays at the FX0A, no key is polled. -/
def Obligations.KeyWaitIsEnteredAtItsPc : Prop :=
  ∀ (x : Reg) (s : State),
    decode (0xF#4 ++ nibble x ++ 0x0A#8) = .ok (.ldVxK x) ∧
    Completes (exec (.ldVxK x) s) fun t => t.mode = .waitingForKey x ∧ ChangesOnly [.mode] s t

/-! ## The whole machine -/

/-- No instruction stops the model: in every state, every instruction answers a next state (a fault of the core is the next
state of 60_exceptions.md section 2). -/
def Obligations.EveryInstructionAnswersANextState : Prop :=
  ∀ (i : Instr) (s : State), ∃ t, exec i s = .next t

/-- The invariant holds right after reset. -/
def Obligations.InvariantHoldsAtReset : Prop := State.reset.Inv

/-- Every step keeps the invariant, whatever event it is and under every schedule: canonical memory, pc at most 0x10FE, a
wait standing at its FX0A, a halt at its faulting pc, and a fresh core while a load is open. -/
def Obligations.EveryStepKeepsTheInvariant : Prop :=
  ∀ s t : State, s.Inv → step s = .next t → t.Inv

/-- 60_exceptions.md section 2, 92_eei_decisions.md D28: from a halted state that meets the invariant, every event but a
reset leaves the record, pc, V, I, SP, STACK, Mem and FB as they are. -/
def Obligations.HaltedIsLeftOnlyByReset : Prop :=
  ∀ (s t : State) (f : FaultRecord), s.Inv → s.mode = .halted f → step s = .next t →
    s.schedule.head? = some .reset ∨ ChangesOnly [.dt, .st, .key, .schedule] s t

/-- 60_exceptions.md section 2, 92_eei_decisions.md D21 (log 12): a Running cycle that ends Halted has written MODE (with the
record) and, as every cycle does, cleared LOAD_OPEN (log 12) and taken its event off the list (log 2), and nothing else. -/
def Obligations.FaultingCycleIsPrecise : Prop :=
  ∀ (s t : State) (f : FaultRecord), s.nextIsCycle → s.mode = .running → step s = .next t → t.mode = .halted f →
    t = { s.inCycle with mode := .halted f }

/-- The "written by" column of 10_state.md section 8, which lists the state other than V, and of 20_memory.md section 1 for
memory: an instruction that changes such a piece of state is one of those named there. The clauses for `draws` (log 1) and
`schedule` (log 2) are about the model's own fields. -/
def Obligations.StateIsWrittenOnlyByItsInstructions : Prop :=
  ∀ (i : Instr) (s t : State), exec i s = .next t →
    (t.i ≠ s.i → (∃ nnn, i = .ldI nnn) ∨ ∃ x, i = .addI x ∨ i = .ldF x ∨ i = .ldMemVx x ∨ i = .ldVxMem x) ∧
    (t.sp ≠ s.sp → i = .ret ∨ ∃ nnn, i = .call nnn) ∧
    (t.stack ≠ s.stack → ∃ nnn, i = .call nnn) ∧
    (t.dt ≠ s.dt → ∃ x, i = .ldDTVx x) ∧
    (t.st ≠ s.st → ∃ x, i = .ldSTVx x) ∧
    (t.fb ≠ s.fb → i = .cls ∨ ∃ x y n, i = .drw x y n) ∧
    (t.mem ≠ s.mem → ∃ x, i = .ldB x ∨ i = .ldMemVx x) ∧
    (t.draws ≠ s.draws → ∃ x nn, i = .rnd x nn) ∧
    t.key = s.key ∧ t.loadOpen = s.loadOpen ∧ t.schedule = s.schedule ∧
    (t.mode = s.mode ∨ (∃ x, i = .ldVxK x ∧ t.mode = .waitingForKey x) ∨ ∃ f, t.mode = .halted f)

/-- 10_state.md sections 5 and 8: no instruction reads ST or LOAD_OPEN. With other values in them, an instruction does the
same, and leaves them as they were (FX18, which writes ST, writes the same). -/
def Obligations.NoInstructionReadsSoundTimerOrLoadOpen : Prop :=
  ∀ (i : Instr) (s : State) (st : Byte) (lo : Bool),
    ((∀ x, i ≠ .ldSTVx x) →
      exec i { s with st := st, loadOpen := lo } = mapNext (fun t => { t with st := st, loadOpen := lo }) (exec i s)) ∧
    (∀ x, i = .ldSTVx x →
      exec i { s with st := st, loadOpen := lo } = mapNext (fun t => { t with loadOpen := lo }) (exec i s))

/-- 10_state.md section 4, 92_eei_decisions.md D27: entries at or above SP cannot be observed. Two states that differ only
there go to states that differ only there. -/
def Obligations.StaleStackEntriesAreNotObservable : Prop :=
  ∀ (i : Instr) (s : State) (stack : Vector Word 16),
    (∀ j (h : j < 16), j < s.sp.val → stack[j] = s.stack[j]) →
    ∃ t t' : State, exec i s = .next t ∧ exec i { s with stack := stack } = .next t' ∧
      t' = { t with stack := t'.stack } ∧ ∀ j (h : j < 16), j < t.sp.val → t'.stack[j] = t.stack[j]

/-- 10_state.md section 5 (the delay timer): it never rises but by an FX15 that the step executes. -/
def Obligations.DelayTimerRisesOnlyByItsInstruction : Prop :=
  ∀ s t : State, step s = .next t → s.dt.toNat < t.dt.toNat → ∃ x, s.executesNext (.ldDTVx x)

/-- 10_state.md section 7: only the host writes the keys. -/
def Obligations.KeysAreWrittenOnlyByTheHost : Prop :=
  ∀ s t : State, step s = .next t → t.key ≠ s.key →
    s.schedule.head? = some .reset ∨ ∃ k b, s.schedule.head? = some (.setKeyState k b)
end

