-- ==== Sys2Proof/Laws/Decode.lean ====
section
/-! SUPPORT. What each field of a word is on a word written in each format of 30_encoding.md R92, and the bytes of a word. -/

namespace Sys2Proof

/-! ## Fields as numbers -/

theorem opC_toNat (op : Word) : (opC op).toNat = op.toNat / 4096 := by
  have := op.isLt
  simp [opC, Nat.shiftRight_eq_div_pow]; omega

theorem opX_val (op : Word) : (opX op).val = op.toNat / 256 % 16 := by
  simp [opX, Nat.shiftRight_eq_div_pow]

theorem opY_val (op : Word) : (opY op).val = op.toNat / 16 % 16 := by
  simp [opY, Nat.shiftRight_eq_div_pow]

theorem opN_val (op : Word) : (opN op).val = op.toNat % 16 := by
  simp [opN]

theorem opNN_toNat (op : Word) : (opNN op).toNat = op.toNat % 256 := by
  simp [opNN]

theorem opNNN_toNat (op : Word) : (opNNN op).toNat = op.toNat % 4096 := by
  simp [opNNN]

/-! ## Formats as numbers -/

theorem append_toNat {n m : Nat} (a : BitVec n) (b : BitVec m) : (a ++ b).toNat = a.toNat * 2 ^ m + b.toNat := by
  rw [BitVec.toNat_append, Nat.shiftLeft_eq, Nat.mul_comm, ← Nat.two_pow_add_eq_or_of_lt b.isLt]

theorem nibble_toNat (k : Fin 16) : (nibble k).toNat = k.val := rfl

theorem fmtA_toNat (c : BitVec 4) (nnn : Addr12) : (fmtA c nnn).toNat = c.toNat * 4096 + nnn.toNat :=
  append_toNat c nnn

theorem fmtXNN_toNat (c : BitVec 4) (x : Reg) (nn : Byte) :
    (fmtXNN c x nn).toNat = c.toNat * 4096 + x.val * 256 + nn.toNat := by
  show (c ++ nibble x ++ nn).toNat = _
  rw [append_toNat, append_toNat, nibble_toNat]; omega

theorem fmtXYN_toNat (c : BitVec 4) (x y : Reg) (n : Fin 16) :
    (fmtXYN c x y n).toNat = c.toNat * 4096 + x.val * 256 + y.val * 16 + n.val := by
  show (c ++ nibble x ++ nibble y ++ nibble n).toNat = _
  rw [append_toNat, append_toNat, append_toNat, nibble_toNat, nibble_toNat, nibble_toNat]; omega

/-! ## Each field of each format -/

@[simp] theorem opC_fmtA (c : BitVec 4) (nnn : Addr12) : opC (fmtA c nnn) = c := by
  apply BitVec.eq_of_toNat_eq; rw [opC_toNat, fmtA_toNat]; omega

@[simp] theorem opNNN_fmtA (c : BitVec 4) (nnn : Addr12) : opNNN (fmtA c nnn) = nnn := by
  apply BitVec.eq_of_toNat_eq; rw [opNNN_toNat, fmtA_toNat]; omega

@[simp] theorem opC_fmtXNN (c : BitVec 4) (x : Reg) (nn : Byte) : opC (fmtXNN c x nn) = c := by
  apply BitVec.eq_of_toNat_eq; rw [opC_toNat, fmtXNN_toNat]; omega

@[simp] theorem opX_fmtXNN (c : BitVec 4) (x : Reg) (nn : Byte) : opX (fmtXNN c x nn) = x := by
  apply Fin.ext; rw [opX_val, fmtXNN_toNat]; omega

@[simp] theorem opNN_fmtXNN (c : BitVec 4) (x : Reg) (nn : Byte) : opNN (fmtXNN c x nn) = nn := by
  apply BitVec.eq_of_toNat_eq; rw [opNN_toNat, fmtXNN_toNat]; omega

@[simp] theorem opC_fmtXYN (c : BitVec 4) (x y : Reg) (n : Fin 16) : opC (fmtXYN c x y n) = c := by
  apply BitVec.eq_of_toNat_eq; rw [opC_toNat, fmtXYN_toNat]; omega

@[simp] theorem opX_fmtXYN (c : BitVec 4) (x y : Reg) (n : Fin 16) : opX (fmtXYN c x y n) = x := by
  apply Fin.ext; rw [opX_val, fmtXYN_toNat]; omega

@[simp] theorem opY_fmtXYN (c : BitVec 4) (x y : Reg) (n : Fin 16) : opY (fmtXYN c x y n) = y := by
  apply Fin.ext; rw [opY_val, fmtXYN_toNat]; omega

@[simp] theorem opN_fmtXYN (c : BitVec 4) (x y : Reg) (n : Fin 16) : opN (fmtXYN c x y n) = n := by
  apply Fin.ext; rw [opN_val, fmtXYN_toNat]; omega

/-! ## A word is made of its fields -/

theorem fmtA_fields (op : Word) : fmtA (opC op) (opNNN op) = op := by
  apply BitVec.eq_of_toNat_eq; rw [fmtA_toNat, opC_toNat, opNNN_toNat]; omega

theorem fmtXNN_fields (op : Word) : fmtXNN (opC op) (opX op) (opNN op) = op := by
  apply BitVec.eq_of_toNat_eq; rw [fmtXNN_toNat, opC_toNat, opX_val, opNN_toNat]; omega

theorem fmtXYN_fields (op : Word) : fmtXYN (opC op) (opX op) (opY op) (opN op) = op := by
  apply BitVec.eq_of_toNat_eq; rw [fmtXYN_toNat, opC_toNat, opX_val, opY_val, opN_val]; omega

/-- The two bytes of a word in memory order make the word again (R64). -/
@[simp] theorem wordOfBytes_bytes (op : Word) : wordOfBytes (hiByte op) (loByte op) = op := by
  apply BitVec.eq_of_toNat_eq
  show (hiByte op ++ loByte op).toNat = _
  have := op.isLt
  rw [append_toNat]; simp [hiByte, loByte, Nat.shiftRight_eq_div_pow]; omega

end Sys2Proof
end

