-- ==== Sys2Proof/Laws/State.lean ====
section
/-! SUPPORT. One lemma per field per update of State, so that no later proof unfolds a record update; and what a frame says of
a plain register write. -/

namespace Sys2Proof.Machine

/-! ## Reading a register after a write (R20) -/

@[simp] theorem State.reg_setReg_same (s : State) (r : Reg) (b : Byte) : (s.setReg r b).reg r = b := by
  simp [State.reg, State.setReg]

theorem State.reg_setReg (s : State) (r q : Reg) (b : Byte) :
    (s.setReg r b).reg q = if r = q then b else s.reg q := by
  simp [State.reg, State.setReg, Vector.getElem_set, Fin.ext_iff]

@[simp] theorem State.reg_setReg_ne (s : State) {r q : Reg} (b : Byte) (h : q ≠ r) : (s.setReg r b).reg q = s.reg q := by
  rw [State.reg_setReg, if_neg (Ne.symm h)]

/-- Two states with the same registers read the same in every register. -/
theorem State.reg_congr {s t : State} (h : t.v = s.v) (r : Reg) : t.reg r = s.reg r := by
  simp [State.reg, h]

/-! ## `setReg` leaves every other field -/

@[simp] theorem State.setReg_i (s : State) (r : Reg) (b : Byte) : (s.setReg r b).i = s.i := rfl
@[simp] theorem State.setReg_pc (s : State) (r : Reg) (b : Byte) : (s.setReg r b).pc = s.pc := rfl
@[simp] theorem State.setReg_sp (s : State) (r : Reg) (b : Byte) : (s.setReg r b).sp = s.sp := rfl
@[simp] theorem State.setReg_stack (s : State) (r : Reg) (b : Byte) : (s.setReg r b).stack = s.stack := rfl
@[simp] theorem State.setReg_dt (s : State) (r : Reg) (b : Byte) : (s.setReg r b).dt = s.dt := rfl
@[simp] theorem State.setReg_st (s : State) (r : Reg) (b : Byte) : (s.setReg r b).st = s.st := rfl
@[simp] theorem State.setReg_fb (s : State) (r : Reg) (b : Byte) : (s.setReg r b).fb = s.fb := rfl
@[simp] theorem State.setReg_key (s : State) (r : Reg) (b : Byte) : (s.setReg r b).key = s.key := rfl
@[simp] theorem State.setReg_mem (s : State) (r : Reg) (b : Byte) : (s.setReg r b).mem = s.mem := rfl
@[simp] theorem State.setReg_mode (s : State) (r : Reg) (b : Byte) : (s.setReg r b).mode = s.mode := rfl
@[simp] theorem State.setReg_loadOpen (s : State) (r : Reg) (b : Byte) : (s.setReg r b).loadOpen = s.loadOpen := rfl
@[simp] theorem State.setReg_draws (s : State) (r : Reg) (b : Byte) : (s.setReg r b).draws = s.draws := rfl
@[simp] theorem State.setReg_schedule (s : State) (r : Reg) (b : Byte) : (s.setReg r b).schedule = s.schedule := rfl

/-! ## `advance` writes pc alone -/

@[simp] theorem State.advance_pc (s : State) : s.advance.pc = s.pc + 2 := rfl
@[simp] theorem State.advance_v (s : State) : s.advance.v = s.v := rfl
@[simp] theorem State.advance_reg (s : State) (r : Reg) : s.advance.reg r = s.reg r := rfl
@[simp] theorem State.advance_i (s : State) : s.advance.i = s.i := rfl
@[simp] theorem State.advance_sp (s : State) : s.advance.sp = s.sp := rfl
@[simp] theorem State.advance_stack (s : State) : s.advance.stack = s.stack := rfl
@[simp] theorem State.advance_dt (s : State) : s.advance.dt = s.dt := rfl
@[simp] theorem State.advance_st (s : State) : s.advance.st = s.st := rfl
@[simp] theorem State.advance_fb (s : State) : s.advance.fb = s.fb := rfl
@[simp] theorem State.advance_key (s : State) : s.advance.key = s.key := rfl
@[simp] theorem State.advance_mem (s : State) : s.advance.mem = s.mem := rfl
@[simp] theorem State.advance_mode (s : State) : s.advance.mode = s.mode := rfl
@[simp] theorem State.advance_loadOpen (s : State) : s.advance.loadOpen = s.loadOpen := rfl
@[simp] theorem State.advance_draws (s : State) : s.advance.draws = s.draws := rfl
@[simp] theorem State.advance_schedule (s : State) : s.advance.schedule = s.schedule := rfl

/-! ## `skipIf` writes pc alone -/

@[simp] theorem State.skipIf_pc (s : State) (c : Bool) : (s.skipIf c).pc = if c then s.pc + 4 else s.pc + 2 := rfl
@[simp] theorem State.skipIf_v (s : State) (c : Bool) : (s.skipIf c).v = s.v := rfl
@[simp] theorem State.skipIf_reg (s : State) (c : Bool) (r : Reg) : (s.skipIf c).reg r = s.reg r := rfl
@[simp] theorem State.skipIf_i (s : State) (c : Bool) : (s.skipIf c).i = s.i := rfl
@[simp] theorem State.skipIf_sp (s : State) (c : Bool) : (s.skipIf c).sp = s.sp := rfl
@[simp] theorem State.skipIf_stack (s : State) (c : Bool) : (s.skipIf c).stack = s.stack := rfl
@[simp] theorem State.skipIf_dt (s : State) (c : Bool) : (s.skipIf c).dt = s.dt := rfl
@[simp] theorem State.skipIf_st (s : State) (c : Bool) : (s.skipIf c).st = s.st := rfl
@[simp] theorem State.skipIf_fb (s : State) (c : Bool) : (s.skipIf c).fb = s.fb := rfl
@[simp] theorem State.skipIf_key (s : State) (c : Bool) : (s.skipIf c).key = s.key := rfl
@[simp] theorem State.skipIf_mem (s : State) (c : Bool) : (s.skipIf c).mem = s.mem := rfl
@[simp] theorem State.skipIf_mode (s : State) (c : Bool) : (s.skipIf c).mode = s.mode := rfl
@[simp] theorem State.skipIf_loadOpen (s : State) (c : Bool) : (s.skipIf c).loadOpen = s.loadOpen := rfl
@[simp] theorem State.skipIf_draws (s : State) (c : Bool) : (s.skipIf c).draws = s.draws := rfl
@[simp] theorem State.skipIf_schedule (s : State) (c : Bool) : (s.skipIf c).schedule = s.schedule := rfl

/-! ## `writeResultThenFlag` writes V and pc alone, the flag last (R22) -/

@[simp] theorem State.writeResultThenFlag_vf (s : State) (x : Reg) (a f : Byte) :
    (s.writeResultThenFlag x a f).reg 15 = f := by
  simp [State.writeResultThenFlag]

@[simp] theorem State.writeResultThenFlag_result (s : State) {x : Reg} (a f : Byte) (h : x ≠ 15) :
    (s.writeResultThenFlag x a f).reg x = a := by
  simp [State.writeResultThenFlag, h]

@[simp] theorem State.writeResultThenFlag_other (s : State) {x r : Reg} (a f : Byte) (hx : r ≠ x) (hf : r ≠ 15) :
    (s.writeResultThenFlag x a f).reg r = s.reg r := by
  simp [State.writeResultThenFlag, hx, hf]

@[simp] theorem State.writeResultThenFlag_pc (s : State) (x : Reg) (a f : Byte) :
    (s.writeResultThenFlag x a f).pc = s.pc + 2 := rfl
@[simp] theorem State.writeResultThenFlag_i (s : State) (x : Reg) (a f : Byte) :
    (s.writeResultThenFlag x a f).i = s.i := rfl
@[simp] theorem State.writeResultThenFlag_sp (s : State) (x : Reg) (a f : Byte) :
    (s.writeResultThenFlag x a f).sp = s.sp := rfl
@[simp] theorem State.writeResultThenFlag_stack (s : State) (x : Reg) (a f : Byte) :
    (s.writeResultThenFlag x a f).stack = s.stack := rfl
@[simp] theorem State.writeResultThenFlag_dt (s : State) (x : Reg) (a f : Byte) :
    (s.writeResultThenFlag x a f).dt = s.dt := rfl
@[simp] theorem State.writeResultThenFlag_st (s : State) (x : Reg) (a f : Byte) :
    (s.writeResultThenFlag x a f).st = s.st := rfl
@[simp] theorem State.writeResultThenFlag_fb (s : State) (x : Reg) (a f : Byte) :
    (s.writeResultThenFlag x a f).fb = s.fb := rfl
@[simp] theorem State.writeResultThenFlag_key (s : State) (x : Reg) (a f : Byte) :
    (s.writeResultThenFlag x a f).key = s.key := rfl
@[simp] theorem State.writeResultThenFlag_mem (s : State) (x : Reg) (a f : Byte) :
    (s.writeResultThenFlag x a f).mem = s.mem := rfl
@[simp] theorem State.writeResultThenFlag_mode (s : State) (x : Reg) (a f : Byte) :
    (s.writeResultThenFlag x a f).mode = s.mode := rfl
@[simp] theorem State.writeResultThenFlag_loadOpen (s : State) (x : Reg) (a f : Byte) :
    (s.writeResultThenFlag x a f).loadOpen = s.loadOpen := rfl
@[simp] theorem State.writeResultThenFlag_draws (s : State) (x : Reg) (a f : Byte) :
    (s.writeResultThenFlag x a f).draws = s.draws := rfl
@[simp] theorem State.writeResultThenFlag_schedule (s : State) (x : Reg) (a f : Byte) :
    (s.writeResultThenFlag x a f).schedule = s.schedule := rfl

/-! ## What a cycle hands on -/

@[simp] theorem State.inCycle_v (s : State) : s.inCycle.v = s.v := rfl
@[simp] theorem State.inCycle_reg (s : State) (r : Reg) : s.inCycle.reg r = s.reg r := rfl
@[simp] theorem State.inCycle_loadOpen (s : State) : s.inCycle.loadOpen = false := rfl
@[simp] theorem State.inCycle_schedule (s : State) : s.inCycle.schedule = s.schedule.tail := rfl
@[simp] theorem State.inCycle_i (s : State) : s.inCycle.i = s.i := rfl
@[simp] theorem State.inCycle_pc (s : State) : s.inCycle.pc = s.pc := rfl
@[simp] theorem State.inCycle_sp (s : State) : s.inCycle.sp = s.sp := rfl
@[simp] theorem State.inCycle_stack (s : State) : s.inCycle.stack = s.stack := rfl
@[simp] theorem State.inCycle_dt (s : State) : s.inCycle.dt = s.dt := rfl
@[simp] theorem State.inCycle_st (s : State) : s.inCycle.st = s.st := rfl
@[simp] theorem State.inCycle_fb (s : State) : s.inCycle.fb = s.fb := rfl
@[simp] theorem State.inCycle_key (s : State) : s.inCycle.key = s.key := rfl
@[simp] theorem State.inCycle_mem (s : State) : s.inCycle.mem = s.mem := rfl
@[simp] theorem State.inCycle_mode (s : State) : s.inCycle.mode = s.mode := rfl
@[simp] theorem State.inCycle_draws (s : State) : s.inCycle.draws = s.draws := rfl

/-! ## Outcomes -/

@[simp] theorem completes_next (t : State) (P : State → Prop) : Completes (.next t) P ↔ P t :=
  ⟨fun ⟨_, h, hp⟩ => by cases h; exact hp, fun h => ⟨t, rfl, h⟩⟩

@[simp] theorem mapNext_next (f : State → State) (t : State) : mapNext f (.next t) = .next (f t) := rfl

/-- `raise` answers a next state that differs in MODE alone (R257). -/
@[simp] theorem raise_eq (f : FaultRecord) (s : State) : raise f s = .next { s with mode := .halted f } := rfl

theorem guardRange_none (s e : State) : guardRange s none e = .next e := rfl

theorem guardRange_some (s e : State) (a : Nat) :
    guardRange s (some a) e = .next { s with mode := .halted (.outOfBoundsAccess (BitVec.ofNat 16 a) s.pc) } := rfl

/-- All that `guardRange` can do: the effect, or the fault and nothing else. -/
theorem guardRange_cases {s e t : State} {bad : Option Nat} (h : guardRange s bad e = .next t) :
    (bad = none ∧ t = e) ∨
    ∃ a, bad = some a ∧ t = { s with mode := .halted (.outOfBoundsAccess (BitVec.ofNat 16 a) s.pc) } := by
  cases bad with
  | none => cases h; exact .inl ⟨rfl, rfl⟩
  | some a => cases h; exact .inr ⟨a, rfl, rfl⟩

/-! ## Frames -/

theorem ChangesOnly.refl (fields : List Field) (s : State) : ChangesOnly fields s s := by
  constructor <;> intros <;> rfl

end Sys2Proof.Machine
end

