-- ==== Sys2Proof/Laws/Display.lean ====
section
/-! SUPPORT. What flipping a cell and drawing a sprite do to each cell of the display (10_state.md R32; 45_display.md R207 to
R211). -/

namespace Sys2Proof.Machine

@[simp] theorem Display.cell_clear (x y : Nat) : Display.clear.cell x y = false := by
  simp [Display.cell, Display.clear]

/-- A flip changes the one cell it names. -/
theorem Display.cell_flip (fb : Display) (x y px py : Nat) :
    (fb.flip x y).cell px py =
      if px % 64 = x % 64 ∧ py % 32 = y % 32 then !fb.cell px py else fb.cell px py := by
  have hx : px % 64 < 64 := Nat.mod_lt _ (by decide)
  simp only [Display.cell, Display.flip, Vector.getElem_set]
  by_cases hy : y % 32 = py % 32
  · by_cases hpx : x % 64 = px % 64
    · simp [hy, hpx, hx]
    · simp [hy, hpx, BitVec.getLsbD_twoPow, eq_comm (a := px % 64)]
  · simp [hy, eq_comm (a := py % 32)]

/-- Cells below 64 x 32 tell two displays apart. -/
theorem Display.ext {fb fb' : Display} (h : ∀ px < 64, ∀ py < 32, fb.cell px py = fb'.cell px py) : fb = fb' := by
  apply Vector.ext
  intro y hy
  apply BitVec.eq_of_getLsbD_eq
  intro x hx
  have := h x hx y hy
  simpa [Display.cell, Nat.mod_eq_of_lt hx, Nat.mod_eq_of_lt hy] using this

/-- The cells that the first `n` columns of the sprite byte `b`, put at column `cx` of row `y`, paint. -/
def rowPaints (b : Byte) (cx y n px py : Nat) : Prop :=
  ∃ c < n, b.getLsbD (7 - c) = true ∧ px % 64 = (cx + c) % 64 ∧ py % 32 = y % 32

theorem rowPaints_succ (b : Byte) (cx y n px py : Nat) :
    rowPaints b cx y (n + 1) px py ↔
      rowPaints b cx y n px py ∨ (b.getLsbD (7 - n) = true ∧ px % 64 = (cx + n) % 64 ∧ py % 32 = y % 32) := by
  constructor
  · rintro ⟨c, hc, h⟩
    rcases Nat.lt_succ_iff_lt_or_eq.mp hc with hlt | rfl
    · exact .inl ⟨c, hlt, h⟩
    · exact .inr h
  · rintro (⟨c, hc, h⟩ | h)
    · exact ⟨c, by omega, h⟩
    · exact ⟨n, by omega, h⟩

/-- Two columns of one row are two cells: no cell is painted twice (R211). -/
theorem rowPaints_once {b : Byte} {cx y n px py : Nat} (hn : n < 8) (h : rowPaints b cx y n px py) :
    ¬ (px % 64 = (cx + n) % 64) := by
  obtain ⟨c, hc, -, hx, -⟩ := h
  omega

/-- What drawing the first `n` columns of a sprite row does: painted cells flip, the others stay, and the flag goes up exactly
when a painted cell was set. -/
theorem drawRow_spec (b : Byte) (cx y : Nat) (n : Nat) (hn : n ≤ 8) (acc : Display × Bool) :
    (∀ px py, (rowPaints b cx y n px py → (drawRow b cx y n acc).1.cell px py = !acc.1.cell px py) ∧
      (¬ rowPaints b cx y n px py → (drawRow b cx y n acc).1.cell px py = acc.1.cell px py)) ∧
    ((drawRow b cx y n acc).2 = true ↔
      acc.2 = true ∨ ∃ px py, rowPaints b cx y n px py ∧ acc.1.cell px py = true) := by
  induction n with
  | zero => simp [drawRow, rowPaints]
  | succ n ih =>
    obtain ⟨ihc, ihf⟩ := ih (by omega)
    simp only [drawRow]
    by_cases hb : b.getLsbD (7 - n) = true
    · simp only [hb, if_true, drawCell, Bool.or_eq_true]
      have key : ∀ px py, px % 64 = (cx + n) % 64 ∧ py % 32 = y % 32 →
          (drawRow b cx y n acc).1.cell px py = acc.1.cell px py := fun px py h =>
        (ihc px py).2 (fun hp => rowPaints_once (by omega) hp h.1)
      refine ⟨fun px py => ?_, ?_⟩
      · rw [rowPaints_succ, Display.cell_flip]
        by_cases hh : px % 64 = (cx + n) % 64 ∧ py % 32 = y % 32
        · simp only [hh, and_self, if_true, key px py hh, hb, or_true, not_true, forall_true_left, false_imp_iff]
        · simp only [hh, if_false, and_false, or_false]
          exact ihc px py
      · rw [ihf, key (cx + n) y ⟨rfl, rfl⟩]
        constructor
        · rintro ((h | ⟨px, py, hp, hc⟩) | h)
          · exact .inl h
          · exact .inr ⟨px, py, (rowPaints_succ ..).mpr (.inl hp), hc⟩
          · exact .inr ⟨cx + n, y, (rowPaints_succ ..).mpr (.inr ⟨hb, rfl, rfl⟩), h⟩
        · rintro (h | ⟨px, py, hp, hc⟩)
          · exact .inl (.inl h)
          · rcases (rowPaints_succ ..).mp hp with hp | ⟨-, hx, hy⟩
            · exact .inl (.inr ⟨px, py, hp, hc⟩)
            · refine .inr ?_
              simpa [Display.cell, hx, hy] using hc
    · have hsucc : ∀ px py, rowPaints b cx y (n + 1) px py ↔ rowPaints b cx y n px py := fun px py => by
        rw [rowPaints_succ]; simp [hb]
      simp only [hb, Bool.false_eq_true, if_false, hsucc]
      exact ⟨ihc, ihf⟩

/-- The cells that the first `n` rows of the sprite at `a` paint. -/
def rowsPaint (m : Memory) (a cx cy n px py : Nat) : Prop :=
  ∃ r < n, rowPaints (Memory.read m (a + r)) cx (cy + r) 8 px py

theorem rowsPaint_succ (m : Memory) (a cx cy n px py : Nat) :
    rowsPaint m a cx cy (n + 1) px py ↔
      rowsPaint m a cx cy n px py ∨ rowPaints (Memory.read m (a + n)) cx (cy + n) 8 px py := by
  constructor
  · rintro ⟨c, hc, h⟩
    rcases Nat.lt_succ_iff_lt_or_eq.mp hc with hlt | rfl
    · exact .inl ⟨c, hlt, h⟩
    · exact .inr h
  · rintro (⟨c, hc, h⟩ | h)
    · exact ⟨c, by omega, h⟩
    · exact ⟨n, by omega, h⟩

/-- What drawing the first `n` rows of a sprite does: painted cells flip, the others stay, and the flag goes up exactly when a
painted cell was set. -/
theorem drawRows_spec (m : Memory) (a cx cy : Nat) (n : Nat) (hn : n ≤ 32) (acc : Display × Bool) :
    (∀ px py, (rowsPaint m a cx cy n px py → (drawRows m a cx cy n acc).1.cell px py = !acc.1.cell px py) ∧
      (¬ rowsPaint m a cx cy n px py → (drawRows m a cx cy n acc).1.cell px py = acc.1.cell px py)) ∧
    ((drawRows m a cx cy n acc).2 = true ↔
      acc.2 = true ∨ ∃ px py, rowsPaint m a cx cy n px py ∧ acc.1.cell px py = true) := by
  induction n with
  | zero => simp [drawRows, rowsPaint]
  | succ n ih =>
    obtain ⟨ihc, ihf⟩ := ih (by omega)
    obtain ⟨rc, rf⟩ := drawRow_spec (Memory.read m (a + n)) cx (cy + n) 8 (le_refl _) (drawRows m a cx cy n acc)
    simp only [drawRows]
    have once : ∀ px py, rowPaints (Memory.read m (a + n)) cx (cy + n) 8 px py → ¬ rowsPaint m a cx cy n px py := by
      rintro px py ⟨c, -, -, -, hy⟩ ⟨r, hr, c', -, -, -, hy'⟩
      omega
    refine ⟨fun px py => ?_, ?_⟩
    · rw [rowsPaint_succ]
      by_cases hp : rowPaints (Memory.read m (a + n)) cx (cy + n) 8 px py
      · simp only [hp, or_true, not_true, forall_true_left, false_imp_iff, and_true]
        rw [(rc px py).1 hp, (ihc px py).2 (once px py hp)]
      · simp only [hp, or_false]
        rw [(rc px py).2 hp]
        exact ihc px py
    · rw [rf, ihf]
      constructor
      · rintro ((h | ⟨px, py, hp, hc⟩) | ⟨px, py, hp, hc⟩)
        · exact .inl h
        · exact .inr ⟨px, py, (rowsPaint_succ ..).mpr (.inl hp), hc⟩
        · rw [(ihc px py).2 (once px py hp)] at hc
          exact .inr ⟨px, py, (rowsPaint_succ ..).mpr (.inr hp), hc⟩
      · rintro (h | ⟨px, py, hp, hc⟩)
        · exact .inl (.inl h)
        · rcases (rowsPaint_succ ..).mp hp with hp | hp
          · exact .inl (.inr ⟨px, py, hp, hc⟩)
          · exact .inr ⟨px, py, hp, by rw [(ihc px py).2 (once px py hp)]; exact hc⟩

end Sys2Proof.Machine
end

