-- ==== Sys2Proof/Laws/Memory.lean ====
section
/-! SUPPORT. The laws of memory: read after write, and that every operation keeps the canonical form (20_memory.md R62, R63,
R65, R67). -/

namespace Sys2Proof.Machine

/-! ## Reading one byte -/

theorem Memory.read_erase (m : Memory) (a c : Nat) :
    Memory.read (Memory.erase m a) c = if c = a then resetByte a else Memory.read m c := by
  induction m with
  | nil => by_cases h : c = a <;> simp [Memory.erase, Memory.read, h]
  | cons e rest ih =>
    obtain ⟨k, d⟩ := e
    unfold Memory.erase
    by_cases hk : k = a
    · subst hk
      rw [if_pos rfl, ih]
      by_cases hc : c = k
      · simp [hc]
      · simp [hc, Memory.read, Ne.symm hc]
    · rw [if_neg hk]
      by_cases hkc : k = c
      · subst hkc; simp [Memory.read, hk]
      · simpa [Memory.read, hkc] using ih

theorem Memory.read_insert {m : Memory} {a : Nat} (c : Nat) (b : Byte) (h : ∀ e ∈ m, e.1 ≠ a) :
    Memory.read (Memory.insert m a b) c = if c = a then b else Memory.read m c := by
  induction m with
  | nil => by_cases hc : c = a <;> simp [Memory.insert, Memory.read, hc, eq_comm (a := a)]
  | cons e rest ih =>
    obtain ⟨k, d⟩ := e
    have hk : k ≠ a := h (k, d) (by simp)
    have ih := ih (fun e he => h e (by simp [he]))
    unfold Memory.insert
    split
    · by_cases hc : c = a
      · simp [hc, Memory.read]
      · simp [hc, Memory.read, Ne.symm hc]
    · by_cases hkc : k = c
      · subst hkc; simp [Memory.read, hk]
      · simpa [Memory.read, hkc] using ih

theorem Memory.erase_unlisted (m : Memory) (a : Nat) : ∀ e ∈ Memory.erase m a, e.1 ≠ a := by
  induction m with
  | nil => simp [Memory.erase]
  | cons e rest ih =>
    unfold Memory.erase
    split
    · exact ih
    · rename_i hk
      intro x hx
      rcases List.mem_cons.mp hx with rfl | hx
      · exact hk
      · exact ih x hx

/-- Read after write (R63): the address written gives the byte, every other address is as before. -/
theorem Memory.read_write (m : Memory) (a c : Nat) (b : Byte) :
    Memory.read (Memory.write m a b) c = if c = a then b else Memory.read m c := by
  unfold Memory.write
  split
  · rename_i hb; rw [Memory.read_erase, hb]
  · rw [Memory.read_insert c b (Memory.erase_unlisted m a), Memory.read_erase]
    by_cases hc : c = a <;> simp [hc]

/-- An address below every listed one reads as unlisted. -/
theorem Memory.read_below {m : Memory} {lo a : Nat} (h : Memory.wfFrom lo m = true) (ha : a < lo) :
    Memory.read m a = resetByte a := by
  induction m generalizing lo with
  | nil => rfl
  | cons e rest ih =>
    obtain ⟨k, b⟩ := e
    simp only [Memory.wfFrom, Bool.and_eq_true, decide_eq_true_eq] at h
    have hk : k ≠ a := by omega
    simp only [Memory.read, if_neg hk]
    exact ih h.2 (by omega)

/-! ## The canonical form -/

theorem Memory.wfFrom_mono {m : Memory} {lo lo' : Nat} (h : Memory.wfFrom lo m = true) (hl : lo' ≤ lo) :
    Memory.wfFrom lo' m = true := by
  cases m with
  | nil => rfl
  | cons e rest =>
    simp only [Memory.wfFrom, Bool.and_eq_true, decide_eq_true_eq] at h ⊢
    exact ⟨⟨⟨by omega, h.1.1.2⟩, h.1.2⟩, h.2⟩

theorem Memory.wfFrom_erase {m : Memory} {lo : Nat} (a : Nat) (h : Memory.wfFrom lo m = true) :
    Memory.wfFrom lo (Memory.erase m a) = true := by
  induction m generalizing lo with
  | nil => rfl
  | cons e rest ih =>
    obtain ⟨k, d⟩ := e
    simp only [Memory.wfFrom, Bool.and_eq_true, decide_eq_true_eq] at h
    unfold Memory.erase
    split
    · exact ih (Memory.wfFrom_mono h.2 (by omega))
    · simp only [Memory.wfFrom, Bool.and_eq_true, decide_eq_true_eq]
      exact ⟨h.1, ih h.2⟩

theorem Memory.wfFrom_insert {m : Memory} {lo a : Nat} {b : Byte} (h : Memory.wfFrom lo m = true) (hlo : lo ≤ a)
    (ha : a < Config.memSize) (hb : b ≠ resetByte a) (hm : ∀ e ∈ m, e.1 ≠ a) :
    Memory.wfFrom lo (Memory.insert m a b) = true := by
  induction m generalizing lo with
  | nil => simp [Memory.insert, Memory.wfFrom, hlo, ha, hb]
  | cons e rest ih =>
    obtain ⟨k, d⟩ := e
    have hk : k ≠ a := hm (k, d) (by simp)
    have h' := h
    simp only [Memory.wfFrom, Bool.and_eq_true, decide_eq_true_eq] at h'
    unfold Memory.insert
    split
    · simp only [Memory.wfFrom, Bool.and_eq_true, decide_eq_true_eq, bne_iff_ne] at h ⊢
      exact ⟨⟨⟨hlo, ha⟩, hb⟩, ⟨⟨by omega, h.1.1.2⟩, h.1.2⟩, h.2⟩
    · simp only [Memory.wfFrom, Bool.and_eq_true, decide_eq_true_eq]
      exact ⟨h'.1, ih h'.2 (by omega) (fun e he => hm e (by simp [he]))⟩

/-- A write keeps the canonical form. -/
theorem Memory.wf_write {m : Memory} (h : Memory.wf m = true) {a : Nat} (b : Byte) (ha : a < Config.memSize) :
    Memory.wf (Memory.write m a b) = true := by
  unfold Memory.write
  split
  · exact Memory.wfFrom_erase a h
  · rename_i hb
    exact Memory.wfFrom_insert (Memory.wfFrom_erase a h) (Nat.zero_le a) ha hb (Memory.erase_unlisted m a)

/-- A block written inside memory keeps the canonical form. -/
theorem Memory.wf_writeBlock {m : Memory} (h : Memory.wf m = true) (a : Nat) (bs : List Byte)
    (ha : a + bs.length ≤ Config.memSize) : Memory.wf (Memory.writeBlock m a bs) = true := by
  induction bs generalizing m a with
  | nil => exact h
  | cons b bs ih =>
    simp only [List.length_cons] at ha
    exact ih (Memory.wf_write h b (by omega)) (a + 1) (by omega)

/-- Two canonical memories that read the same in every byte are equal: equal memories are equal data. -/
theorem Memory.ext_of_wfFrom {m m' : Memory} {lo lo' : Nat} (h : Memory.wfFrom lo m = true) (h' : Memory.wfFrom lo' m' = true)
    (he : ∀ a, Memory.read m a = Memory.read m' a) : m = m' := by
  induction m generalizing lo lo' m' with
  | nil =>
    cases m' with
    | nil => rfl
    | cons e rest =>
      simp only [Memory.wfFrom, Bool.and_eq_true, decide_eq_true_eq, bne_iff_ne] at h'
      exact absurd (by simpa [Memory.read] using (he e.1).symm) h'.1.2
  | cons e rest ih =>
    obtain ⟨k, b⟩ := e
    simp only [Memory.wfFrom, Bool.and_eq_true, decide_eq_true_eq, bne_iff_ne] at h
    cases m' with
    | nil => exact absurd (by simpa [Memory.read] using he k) h.1.2
    | cons e' rest' =>
      obtain ⟨k', b'⟩ := e'
      have hw' := h'
      simp only [Memory.wfFrom, Bool.and_eq_true, decide_eq_true_eq, bne_iff_ne] at h'
      have hk : k = k' := by
        rcases Nat.lt_trichotomy k k' with hlt | heq | hgt
        · have := he k
          simp only [Memory.read, if_true, if_neg (show k' ≠ k by omega)] at this
          rw [Memory.read_below h'.2 (by omega)] at this
          exact absurd this h.1.2
        · exact heq
        · have := he k'
          simp only [Memory.read, if_true, if_neg (show k ≠ k' by omega)] at this
          rw [Memory.read_below h.2 (by omega)] at this
          exact absurd this.symm h'.1.2
      subst hk
      have hb : b = b' := by simpa [Memory.read] using he k
      subst hb
      congr 1
      refine ih h.2 h'.2 (fun a => ?_)
      by_cases ha : k = a
      · subst ha
        rw [Memory.read_below h.2 (by omega), Memory.read_below h'.2 (by omega)]
      · simpa [Memory.read, ha] using he a

/-! ## Blocks -/

/-- What a block write does to every byte. -/
theorem Memory.read_writeBlock (m : Memory) (a : Nat) (bs : List Byte) (c : Nat) :
    Memory.read (Memory.writeBlock m a bs) c =
      if a ≤ c then (bs[c - a]?).getD (Memory.read m c) else Memory.read m c := by
  induction bs generalizing m a with
  | nil => simp [Memory.writeBlock]
  | cons b bs ih =>
    simp only [Memory.writeBlock]
    rw [ih, Memory.read_write]
    rcases Nat.lt_trichotomy c a with hlt | heq | hgt
    · simp [show ¬ (a + 1 ≤ c) by omega, show ¬ (a ≤ c) by omega, show c ≠ a by omega]
    · subst heq; simp
    · have : c - a = (c - (a + 1)) + 1 := by omega
      simp [show a + 1 ≤ c by omega, show a ≤ c by omega, show c ≠ a by omega, this]

theorem Memory.read_writeBlock_inside (m : Memory) (a : Nat) (bs : List Byte) {k : Nat} (hk : k < bs.length) :
    Memory.read (Memory.writeBlock m a bs) (a + k) = bs[k] := by
  simp [Memory.read_writeBlock, hk]

theorem Memory.read_writeBlock_outside (m : Memory) (a : Nat) (bs : List Byte) {c : Nat}
    (hc : c < a ∨ a + bs.length ≤ c) : Memory.read (Memory.writeBlock m a bs) c = Memory.read m c := by
  rw [Memory.read_writeBlock]
  split
  · rw [List.getElem?_eq_none (by omega)]; rfl
  · rfl

/-! ## The range check -/

/-- All that `firstOutOfRange` can answer: none exactly when every address is in range, and else the lowest out of range,
which is the larger of the base and 4096 (R65). -/
theorem firstOutOfRange_eq (a n : Nat) :
    firstOutOfRange a n = if n = 0 ∨ a + n ≤ Config.memSize then none else some (max a Config.memSize) := by
  induction n generalizing a with
  | zero => simp [firstOutOfRange]
  | succ n ih =>
    unfold firstOutOfRange
    split
    · rw [ih]
      by_cases hn : n = 0
      · subst hn; simpa [firstOutOfRange] using ‹a < Config.memSize›
      · by_cases hle : a + 1 + n ≤ Config.memSize
        · simp [hn, hle, show a + (n + 1) ≤ Config.memSize by omega]
        · simp only [hn, hle, or_self, if_false, show ¬ (a + (n + 1) ≤ Config.memSize) by omega, Nat.add_one_ne_zero]
          congr 1; omega
    · have : ¬ (n + 1 = 0 ∨ a + (n + 1) ≤ Config.memSize) := by omega
      rw [if_neg this]; congr 1; omega

theorem firstOutOfRange_none {a n : Nat} (h : n = 0 ∨ a + n ≤ Config.memSize) : firstOutOfRange a n = none := by
  rw [firstOutOfRange_eq, if_pos h]

theorem firstOutOfRange_some {a n : Nat} (hn : 0 < n) (h : Config.memSize < a + n) :
    firstOutOfRange a n = some (max a Config.memSize) := by
  rw [firstOutOfRange_eq, if_neg (by omega)]

theorem dataOutOfRange_none {s : State} {n : Nat} (h : n = 0 ∨ s.i.toNat + n ≤ Config.memSize) :
    s.dataOutOfRange n = none :=
  firstOutOfRange_none (by simpa [State.dataAddr] using h)

theorem dataOutOfRange_some {s : State} {n : Nat} (hn : 0 < n) (h : Config.memSize < s.i.toNat + n) :
    s.dataOutOfRange n = some (max s.i.toNat Config.memSize) := by
  simpa [State.dataOutOfRange, State.dataAddr] using firstOutOfRange_some hn h

/-- The range check passes only inside memory. -/
theorem inRange_of_dataOutOfRange {s : State} {n : Nat} (h : s.dataOutOfRange n = none) :
    n = 0 ∨ s.i.toNat + n ≤ Config.memSize := by
  by_contra hc
  rw [State.dataOutOfRange, firstOutOfRange_eq, if_neg (by simpa [State.dataAddr] using hc)] at h
  cases h

/-! ## Block transfers of registers -/

theorem regsUpTo_length (s : State) (x : Reg) : (s.regsUpTo x).length = x.val + 1 := by
  simp [State.regsUpTo]

theorem regsUpTo_getElem (s : State) (x : Reg) (k : Nat) (h : k < (s.regsUpTo x).length) :
    (s.regsUpTo x)[k] = s.reg ⟨k, by rw [regsUpTo_length] at h; omega⟩ := by
  simp [State.regsUpTo, State.reg]

/-- What a block load does to every register. -/
theorem loadRegs_getElem (m : Memory) (a n : Nat) (v : Vector Byte 16) (k : Nat) (hk : k < 16) :
    (loadRegs m a n v)[k] = if k < n then Memory.read m (a + k) else v[k] := by
  induction n with
  | zero => simp [loadRegs]
  | succ n ih =>
    simp only [loadRegs]
    rw [Vector.getElem_setIfInBounds]
    by_cases h : n = k
    · subst h; simp
    · rw [if_neg h, ih]
      by_cases hkn : k < n
      · simp [hkn, show k < n + 1 by omega]
      · simp [hkn, show ¬ k < n + 1 by omega]

end Sys2Proof.Machine
end

