-- ==== Sys2Proof/Laws/Events.lean ====
section
/-! SUPPORT. What a step can do, said once; the poll; and that a placed word is what the next step runs. -/

namespace Sys2Proof.Machine

/-! ## Steps -/

/-- A step that is a cycle. -/
theorem step_of_nextIsCycle {s : State} (h : s.nextIsCycle) : step s = dispatchByMode s.inCycle := by
  rcases h with h | h
  · simp [step, nextEvent, h, cycle, State.inCycle]
  · cases hs : s.schedule with
    | nil => simp [hs] at h
    | cons e rest =>
      simp only [hs, List.head?_cons, Option.some.injEq] at h
      subst h
      simp [step, nextEvent, hs, runEvent, cycle, State.inCycle]

theorem step_of_schedule {s : State} {e : Event} {rest : List Event} (h : s.schedule = e :: rest) :
    step s = runEvent e { s with schedule := rest } := by
  simp [step, nextEvent, h]

/-- All that a step can be: a cycle, or the oldest event pending. -/
theorem step_cases (s : State) :
    (s.nextIsCycle ∧ step s = dispatchByMode s.inCycle) ∨
    ∃ e rest, s.schedule = e :: rest ∧ e ≠ .cycle ∧ step s = runEvent e { s with schedule := rest } := by
  cases hs : s.schedule with
  | nil => exact .inl ⟨.inl hs, step_of_nextIsCycle (.inl hs)⟩
  | cons e rest =>
    by_cases he : e = .cycle
    · subst he
      have : s.nextIsCycle := .inr (by simp [hs])
      exact .inl ⟨this, step_of_nextIsCycle this⟩
    · exact .inr ⟨e, rest, rfl, he, step_of_schedule hs⟩

/-- A run goes on from the next state of its first step. -/
theorem run_next {n : Nat} {s t : State} (h : step s = .next t) :
    Host.Core.run Sys2Proof.core (n + 1) s = Host.Core.run Sys2Proof.core n t := by
  have : Sys2Proof.core.step s = .next t := h
  simp only [Host.Core.run, this]

/-! ## The fetch -/

/-- The three ways a Running cycle goes (R101): a fetch fault, an unknown word, or an instruction. -/
theorem runOne_cases (s : State) :
    (4095 ≤ s.pc.toNat ∧
      runOne s = .next { s with mode := .halted (.outOfBoundsAccess (BitVec.ofNat 16 (max s.pc.toNat 4096)) s.pc) }) ∨
    (s.pc.toNat + 1 < 4096 ∧ (∃ e, decode (fetchWord s.mem s.pc.toNat) = .error e) ∧
      runOne s = .next { s with mode := .halted (.unknownOpcode (fetchWord s.mem s.pc.toNat) s.pc) }) ∨
    (s.pc.toNat + 1 < 4096 ∧ ∃ i, decode (fetchWord s.mem s.pc.toNat) = .ok i ∧ runOne s = exec i s) := by
  unfold runOne
  by_cases h : s.pc.toNat + 1 < 4096
  · rw [firstOutOfRange_none (.inr (by show _ ≤ 4096; omega))]
    cases hd : decode (fetchWord s.mem s.pc.toNat) with
    | error e => exact .inr (.inl ⟨h, ⟨e, rfl⟩, rfl⟩)
    | ok i => exact .inr (.inr ⟨h, i, rfl, rfl⟩)
  · rw [firstOutOfRange_some (by omega) (by show 4096 < _; omega)]
    exact .inl ⟨by omega, rfl⟩

/-! ## The poll -/

theorem firstPressed_none {k : Nat} {ks : List Bool} : firstPressed k ks = none ↔ ∀ b ∈ ks, b = false := by
  induction ks generalizing k with
  | nil => simp [firstPressed]
  | cons b rest ih => cases b <;> simp [firstPressed, ih]

/-- The key found is pressed, and no smaller one is. -/
theorem firstPressed_some {k j : Nat} {ks : List Bool} :
    firstPressed k ks = some j ↔
      ∃ d, ∃ h : d < ks.length, j = k + d ∧ ks[d] = true ∧ ∀ e, ∀ he : e < d, ks[e] = false := by
  induction ks generalizing k with
  | nil => simp [firstPressed]
  | cons b rest ih =>
    cases b with
    | true =>
      simp only [firstPressed, Option.some.injEq]
      constructor
      · rintro rfl
        exact ⟨0, by simp, by simp, by simp, by omega⟩
      · rintro ⟨d, hd, rfl, ht, hlt⟩
        cases d with
        | zero => simp
        | succ d => exact absurd (hlt 0 (by omega)) (by simp)
    | false =>
      simp only [firstPressed, ih]
      constructor
      · rintro ⟨d, hd, rfl, ht, hlt⟩
        refine ⟨d + 1, by simpa using hd, by omega, by simpa using ht, fun e he => ?_⟩
        cases e with
        | zero => simp
        | succ e => simpa using hlt e (by omega)
      · rintro ⟨d, hd, rfl, ht, hlt⟩
        cases d with
        | zero => simp at ht
        | succ d =>
          exact ⟨d, by simpa using hd, by omega, by simpa using ht,
            fun e he => by simpa using hlt (e + 1) (by omega)⟩

/-! ## Placing a word -/

theorem fetchWord_placeWord (s : State) (op : Word) :
    fetchWord (s.placeWord op).mem s.pc.toNat = op := by
  have h0 := Memory.read_writeBlock_inside s.mem s.pc.toNat [hiByte op, loByte op] (k := 0) (by simp)
  have h1 := Memory.read_writeBlock_inside s.mem s.pc.toNat [hiByte op, loByte op] (k := 1) (by simp)
  simp only [Nat.add_zero, List.getElem_cons_zero, List.getElem_cons_succ] at h0 h1
  simp only [fetchWord, State.placeWord, h0, h1, wordOfBytes_bytes]

/-- The next step runs the word that `withFetchWord` stores, and that alone: it is the instruction's meaning on the state a
cycle hands on. -/
theorem step_withFetchWord (s : State) (op : Word) (i : Instr) (h : decode op = .ok i) :
    step (s.withFetchWord 16 op.toNat) = exec i (s.withFetchWord 16 op.toNat).inCycle := by
  have hop : BitVec.ofNat 16 (op.toNat % 2 ^ 16) = op := by rw [Nat.mod_eq_of_lt op.isLt]; simp
  have hc : (s.withFetchWord 16 op.toNat).nextIsCycle := by
    unfold State.withFetchWord State.placeWord State.readyToFetch State.nextIsCycle
    cases s.schedule <;> simp
  rw [step_of_nextIsCycle hc]
  have hmode : (s.withFetchWord 16 op.toNat).inCycle.mode = .running := rfl
  have hpc : (s.withFetchWord 16 op.toNat).inCycle.pc.toNat + 1 < 4096 := by
    show (if s.pc.toNat + 1 < 4096 then s.pc else BitVec.ofNat 16 0x200).toNat + 1 < 4096
    split
    · assumption
    · decide
  have hf : fetchWord (s.withFetchWord 16 op.toNat).inCycle.mem (s.withFetchWord 16 op.toNat).inCycle.pc.toNat = op := by
    have := fetchWord_placeWord s.readyToFetch op
    rw [State.withFetchWord, hop]
    exact this
  unfold dispatchByMode
  rw [hmode]
  rcases runOne_cases (s.withFetchWord 16 op.toNat).inCycle with ⟨h1, -⟩ | ⟨-, ⟨e, he⟩, -⟩ | ⟨-, j, hj, hr⟩
  · omega
  · rw [hf, h] at he; cases he
  · rw [hf, h] at hj; cases hj; exact hr

/-! ## Memory after reset -/

theorem reset_mem_wf : Memory.wf State.reset.mem = true := rfl

theorem resetByte_outside_font {a : Nat} (h : a < 0x050 ∨ 0x0A0 ≤ a) : resetByte a = 0 := by
  unfold resetByte
  split
  · rename_i ha
    have hl : fontTable.length = 80 := by decide
    have hb : fontBase = 0x050 := rfl
    rw [hb] at ha
    rw [List.getD_eq_getElem?_getD, List.getElem?_eq_none (by rw [hl, hb]; omega)]
    rfl
  · rfl

end Sys2Proof.Machine
end

