-- ==== Sys2Proof/Laws/PerInstr.lean ====
section
/-! SUPPORT. One statement about every instruction as syntax: its word has the fixed bits of its row of
spec/opcode_table.json. The mask and the match of each row are written here from the table, not from the encoder. -/

namespace Sys2Proof.Laws

/-- The `mask` and `match` columns of the row of an instruction. -/
def tableRow : Instr → Nat × Nat
  | .cls => (0xFFFF, 0x00E0)
  | .ret => (0xFFFF, 0x00EE)
  | .sys _ => (0xF000, 0x0000)
  | .jp _ => (0xF000, 0x1000)
  | .call _ => (0xF000, 0x2000)
  | .seImm _ _ => (0xF000, 0x3000)
  | .sneImm _ _ => (0xF000, 0x4000)
  | .seReg _ _ => (0xF00F, 0x5000)
  | .ldImm _ _ => (0xF000, 0x6000)
  | .addImm _ _ => (0xF000, 0x7000)
  | .ldReg _ _ => (0xF00F, 0x8000)
  | .orReg _ _ => (0xF00F, 0x8001)
  | .andReg _ _ => (0xF00F, 0x8002)
  | .xorReg _ _ => (0xF00F, 0x8003)
  | .addReg _ _ => (0xF00F, 0x8004)
  | .subReg _ _ => (0xF00F, 0x8005)
  | .shrReg _ _ => (0xF00F, 0x8006)
  | .subnReg _ _ => (0xF00F, 0x8007)
  | .shlReg _ _ => (0xF00F, 0x800E)
  | .sneReg _ _ => (0xF00F, 0x9000)
  | .ldI _ => (0xF000, 0xA000)
  | .jpV0 _ => (0xF000, 0xB000)
  | .rnd _ _ => (0xF000, 0xC000)
  | .drw _ _ _ => (0xF000, 0xD000)
  | .skp _ => (0xF0FF, 0xE09E)
  | .sknp _ => (0xF0FF, 0xE0A1)
  | .ldVxDT _ => (0xF0FF, 0xF007)
  | .ldVxK _ => (0xF0FF, 0xF00A)
  | .ldDTVx _ => (0xF0FF, 0xF015)
  | .ldSTVx _ => (0xF0FF, 0xF018)
  | .addI _ => (0xF0FF, 0xF01E)
  | .ldF _ => (0xF0FF, 0xF029)
  | .ldB _ => (0xF0FF, 0xF033)
  | .ldMemVx _ => (0xF0FF, 0xF055)
  | .ldVxMem _ => (0xF0FF, 0xF065)

/-- The word of `i`, under the mask of its row, is the match of its row. -/
def EncodingFitsItsTableRow.Statement (i : Instr) : Prop :=
  encode i &&& BitVec.ofNat 16 (tableRow i).1 = BitVec.ofNat 16 (tableRow i).2

theorem fmtA_masked (c : BitVec 4) (nnn : Addr12) : fmtA c nnn &&& 0xF000#16 = c.setWidth 16 <<< 12 := by
  apply BitVec.eq_of_getLsbD_eq
  intro k hk
  have hm : ∀ j < 16, (0xF000#16).getLsbD j = decide (12 ≤ j) := by decide
  show ((c ++ nnn) &&& 0xF000#16).getLsbD k = _
  rw [BitVec.getLsbD_and, hm k hk, BitVec.getLsbD_append]
  by_cases h : 12 ≤ k
  · simp [h, hk, show ¬ k < 12 by omega]
  · simp [h, show k < 12 by omega]

theorem fmtXNN_masked (c : BitVec 4) (x : Reg) (nn : Byte) : fmtXNN c x nn &&& 0xF000#16 = c.setWidth 16 <<< 12 := by
  have : fmtXNN c x nn = fmtA c (nibble x ++ nn) := by
    apply BitVec.eq_of_toNat_eq
    rw [fmtXNN_toNat, fmtA_toNat]
    have : (nibble x ++ nn : BitVec 12).toNat = x.val * 256 + nn.toNat := append_toNat _ _
    omega
  rw [this, fmtA_masked]

theorem fmtXYN_masked (c : BitVec 4) (x y : Reg) (n : Fin 16) :
    fmtXYN c x y n &&& 0xF000#16 = c.setWidth 16 <<< 12 := by
  have : fmtXYN c x y n = fmtXNN c x (nibble y ++ nibble n) := by
    apply BitVec.eq_of_toNat_eq
    rw [fmtXYN_toNat, fmtXNN_toNat]
    have : (nibble y ++ nibble n : BitVec 8).toNat = y.val * 16 + n.val := append_toNat _ _
    omega
  rw [this, fmtXNN_masked]

namespace EncodingFitsItsTableRow

theorem cls : Statement .cls := by unfold Statement; decide
theorem ret : Statement .ret := by unfold Statement; decide
theorem sys (nnn : Addr12) : Statement (.sys nnn) := fmtA_masked _ nnn
theorem jp (nnn : Addr12) : Statement (.jp nnn) := fmtA_masked _ nnn
theorem call (nnn : Addr12) : Statement (.call nnn) := fmtA_masked _ nnn
theorem ldI (nnn : Addr12) : Statement (.ldI nnn) := fmtA_masked _ nnn
theorem jpV0 (nnn : Addr12) : Statement (.jpV0 nnn) := fmtA_masked _ nnn
theorem seImm (x : Reg) (nn : Byte) : Statement (.seImm x nn) := fmtXNN_masked _ x nn
theorem sneImm (x : Reg) (nn : Byte) : Statement (.sneImm x nn) := fmtXNN_masked _ x nn
theorem ldImm (x : Reg) (nn : Byte) : Statement (.ldImm x nn) := fmtXNN_masked _ x nn
theorem addImm (x : Reg) (nn : Byte) : Statement (.addImm x nn) := fmtXNN_masked _ x nn
theorem rnd (x : Reg) (nn : Byte) : Statement (.rnd x nn) := fmtXNN_masked _ x nn
theorem seReg (x y : Reg) : Statement (.seReg x y) := by revert x y; unfold Statement; decide
theorem ldReg (x y : Reg) : Statement (.ldReg x y) := by revert x y; unfold Statement; decide
theorem orReg (x y : Reg) : Statement (.orReg x y) := by revert x y; unfold Statement; decide
theorem andReg (x y : Reg) : Statement (.andReg x y) := by revert x y; unfold Statement; decide
theorem xorReg (x y : Reg) : Statement (.xorReg x y) := by revert x y; unfold Statement; decide
theorem addReg (x y : Reg) : Statement (.addReg x y) := by revert x y; unfold Statement; decide
theorem subReg (x y : Reg) : Statement (.subReg x y) := by revert x y; unfold Statement; decide
theorem shrReg (x y : Reg) : Statement (.shrReg x y) := by revert x y; unfold Statement; decide
theorem subnReg (x y : Reg) : Statement (.subnReg x y) := by revert x y; unfold Statement; decide
theorem shlReg (x y : Reg) : Statement (.shlReg x y) := by revert x y; unfold Statement; decide
theorem sneReg (x y : Reg) : Statement (.sneReg x y) := by revert x y; unfold Statement; decide
theorem drw (x y : Reg) (n : Fin 16) : Statement (.drw x y n) := fmtXYN_masked _ x y n
theorem skp (x : Reg) : Statement (.skp x) := by revert x; unfold Statement; decide
theorem sknp (x : Reg) : Statement (.sknp x) := by revert x; unfold Statement; decide
theorem ldVxDT (x : Reg) : Statement (.ldVxDT x) := by revert x; unfold Statement; decide
theorem ldVxK (x : Reg) : Statement (.ldVxK x) := by revert x; unfold Statement; decide
theorem ldDTVx (x : Reg) : Statement (.ldDTVx x) := by revert x; unfold Statement; decide
theorem ldSTVx (x : Reg) : Statement (.ldSTVx x) := by revert x; unfold Statement; decide
theorem addI (x : Reg) : Statement (.addI x) := by revert x; unfold Statement; decide
theorem ldF (x : Reg) : Statement (.ldF x) := by revert x; unfold Statement; decide
theorem ldB (x : Reg) : Statement (.ldB x) := by revert x; unfold Statement; decide
theorem ldMemVx (x : Reg) : Statement (.ldMemVx x) := by revert x; unfold Statement; decide
theorem ldVxMem (x : Reg) : Statement (.ldVxMem x) := by revert x; unfold Statement; decide

end EncodingFitsItsTableRow

end Sys2Proof.Laws
end

