-- ==== Sys2Proof/Tests/Slice0.lean ====
section
/-! SUPPORT. Tests: the ill-formed terms, decoding of words written out from 30_encoding.md, one step of each instruction with
the results of 95_test_vectors.md (named by their id there), and for every statement with hypotheses a state that meets
them. -/

open Sys2Proof Sys2Proof.Machine

/-! ## WellFormed (R95, R131): SYS may not stand for the words of CLS and RET -/

theorem test_sys_word_of_cls_is_ill_formed : (Instr.sys 0x0E0#12).wellFormed = false := by decide
theorem test_sys_word_of_ret_is_ill_formed : (Instr.sys 0x0EE#12).wellFormed = false := by decide
theorem test_sys_zero_is_well_formed : (Instr.sys 0x000#12).wellFormed = true := by decide

/-! ## Decode: one word of every row of spec/opcode_table.json, bit by bit -/

theorem test_decode_cls : decode 0b0000000011100000#16 = .ok .cls := by decide
theorem test_decode_ret : decode 0b0000000011101110#16 = .ok .ret := by decide
theorem test_decode_sys : decode 0b0000000100100011#16 = .ok (.sys 0x123#12) := by decide
theorem test_decode_jp : decode 0b0001101010111100#16 = .ok (.jp 0xABC#12) := by decide
theorem test_decode_call : decode 0b0010001100000000#16 = .ok (.call 0x300#12) := by decide
theorem test_decode_seImm : decode 0b0011001101000010#16 = .ok (.seImm 3 0x42#8) := by decide
theorem test_decode_sneImm : decode 0b0100001101000001#16 = .ok (.sneImm 3 0x41#8) := by decide
theorem test_decode_seReg : decode 0b0101000100100000#16 = .ok (.seReg 1 2) := by decide
theorem test_decode_ldImm : decode 0b0110101001111011#16 = .ok (.ldImm 10 0x7B#8) := by decide
theorem test_decode_addImm : decode 0b0111000100000101#16 = .ok (.addImm 1 0x05#8) := by decide
theorem test_decode_ldReg : decode 0b1000000100100000#16 = .ok (.ldReg 1 2) := by decide
theorem test_decode_orReg : decode 0b1000000100100001#16 = .ok (.orReg 1 2) := by decide
theorem test_decode_andReg : decode 0b1000000100100010#16 = .ok (.andReg 1 2) := by decide
theorem test_decode_xorReg : decode 0b1000000100100011#16 = .ok (.xorReg 1 2) := by decide
theorem test_decode_addReg : decode 0b1000000100100100#16 = .ok (.addReg 1 2) := by decide
theorem test_decode_subReg : decode 0b1000000100100101#16 = .ok (.subReg 1 2) := by decide
theorem test_decode_shrReg : decode 0b1000000100100110#16 = .ok (.shrReg 1 2) := by decide
theorem test_decode_subnReg : decode 0b1000000100100111#16 = .ok (.subnReg 1 2) := by decide
theorem test_decode_shlReg : decode 0b1000000100101110#16 = .ok (.shlReg 1 2) := by decide
theorem test_decode_sneReg : decode 0b1001000100100000#16 = .ok (.sneReg 1 2) := by decide
theorem test_decode_ldI : decode 0b1010001100000000#16 = .ok (.ldI 0x300#12) := by decide
theorem test_decode_jpV0 : decode 0b1011001100000000#16 = .ok (.jpV0 0x300#12) := by decide
theorem test_decode_rnd : decode 0b1100001100001111#16 = .ok (.rnd 3 0x0F#8) := by decide
theorem test_decode_drw : decode 0b1101000100100101#16 = .ok (.drw 1 2 5) := by decide
theorem test_decode_skp : decode 0b1110000110011110#16 = .ok (.skp 1) := by decide
theorem test_decode_sknp : decode 0b1110000110100001#16 = .ok (.sknp 1) := by decide
theorem test_decode_ldVxDT : decode 0b1111010100000111#16 = .ok (.ldVxDT 5) := by decide
theorem test_decode_ldVxK : decode 0b1111010000001010#16 = .ok (.ldVxK 4) := by decide
theorem test_decode_ldDTVx : decode 0b1111001100010101#16 = .ok (.ldDTVx 3) := by decide
theorem test_decode_ldSTVx : decode 0b1111001000011000#16 = .ok (.ldSTVx 2) := by decide
theorem test_decode_addI : decode 0b1111010000011110#16 = .ok (.addI 4) := by decide
theorem test_decode_ldF : decode 0b1111000000101001#16 = .ok (.ldF 0) := by decide
theorem test_decode_ldB : decode 0b1111101000110011#16 = .ok (.ldB 10) := by decide
theorem test_decode_ldMemVx : decode 0b1111001001010101#16 = .ok (.ldMemVx 2) := by decide
theorem test_decode_ldVxMem : decode 0b1111001001100101#16 = .ok (.ldVxMem 2) := by decide

theorem test_bytes_are_big_endian : decodeBytes [0x81#8, 0x24#8, 0xFF#8] = .ok (.addReg 1 2, [0xFF#8]) := by decide
theorem test_one_byte_is_truncated : decodeBytes [0x81#8] = .error .truncated := by decide
theorem test_table_word : decodeTableWord 16 0xD125 = some (.drw 1 2 5) := by decide
/-- FD9, SK9, AL25, KP9, L1.11: each row of illegal words, by its name. -/
theorem test_illegal_words_are_rejected_by_name :
    decode 0x5121#16 = .error (.illegal5XYn 0x5121#16) ∧ decode 0x800F#16 = .error (.illegal8XYn 0x800F#16) ∧
    decode 0x9AB1#16 = .error (.illegal9XYn 0x9AB1#16) ∧ decode 0xE000#16 = .error (.illegalEXnn 0xE000#16) ∧
    decode 0xFFFF#16 = .error (.illegalFXnn 0xFFFF#16) := by decide

/-! ## One step of each instruction -/

namespace Sys2Proof.Tests

/-- The reset state with some registers, I and one byte of memory set. -/
def with_ (regs : List (Reg × Byte)) (i : Word := 0) (mem : Memory := []) : State :=
  regs.foldl (fun s p => s.setReg p.1 p.2) { State.reset with i := i, mem := mem }

/-- One step on the word `w` placed at pc (95_test_vectors.md: "one `cycle()`"). -/
def after (s : State) (w : Nat) : State := (nextState? (step (s.withFetchWord 16 w))).getD s

/-- One step with an event pending. -/
def afterEvent (s : State) (e : Event) : State := (nextState? (step { s with schedule := [e] })).getD s

/-- L1.4 -/
theorem test_cls_clears : (after { with_ [] with fb := Vector.replicate 32 0xFF#64 } 0x00E0).fb = Display.clear := by decide
/-- CT5 -/
theorem test_ret_pops : (after { with_ [] with sp := 1, stack := Vector.replicate 16 0x202#16 } 0x00EE).pc = 0x202#16 := by decide
/-- CT6 -/
theorem test_ret_underflows : (after (with_ []) 0x00EE).mode = .halted (.stackUnderflow 0x00EE#16 0x200#16) := by decide
/-- CT11 -/
theorem test_sys_faults : (after (with_ []) 0x0123).mode = .halted (.unknownOpcode 0x0123#16 0x200#16) := by decide
/-- CT1 -/
theorem test_jp_jumps : (after (with_ []) 0x1ABC).pc = 0xABC#16 := by decide
/-- CT3 -/
theorem test_call_pushes : (after (with_ []) 0x2300).stack[0] = 0x202#16 ∧ (after (with_ []) 0x2300).sp = 1 := by decide
/-- CT4 -/
theorem test_call_overflows : (after { with_ [] with sp := 16 } 0x2300).mode = .halted (.stackOverflow 0x2300#16 0x200#16) := by decide
/-- SK1 -/
theorem test_seImm_skips : (after (with_ [(3, 0x42)]) 0x3342).pc = 0x204#16 := by decide
/-- SK2 -/
theorem test_seImm_goes_on : (after (with_ [(3, 0x42)]) 0x3341).pc = 0x202#16 := by decide
/-- SK3 -/
theorem test_sneImm_skips : (after (with_ [(3, 0x42)]) 0x4341).pc = 0x204#16 := by decide
/-- SK6 -/
theorem test_seReg_goes_on : (after (with_ [(1, 7), (2, 8)]) 0x5120).pc = 0x202#16 := by decide
/-- SK7 -/
theorem test_sneReg_skips : (after (with_ [(1, 7), (2, 8)]) 0x9120).pc = 0x204#16 := by decide
/-- TR1 -/
theorem test_ldImm : (after (with_ []) 0x6A7B).reg 10 = 0x7B#8 := by decide
/-- AL2 -/
theorem test_addImm_leaves_vf : (after (with_ [(1, 0xFF), (15, 1)]) 0x71FF).reg 1 = 0xFE#8 ∧ (after (with_ [(1, 0xFF), (15, 1)]) 0x71FF).reg 15 = 1#8 := by decide
/-- TR3 -/
theorem test_ldReg_leaves_vf : (after (with_ [(2, 0x33), (15, 1)]) 0x8120).reg 1 = 0x33#8 ∧ (after (with_ [(2, 0x33), (15, 1)]) 0x8120).reg 15 = 1#8 := by decide
/-- AL4 -/
theorem test_orReg_clears_vf : (after (with_ [(1, 0xF0), (2, 0x0F), (15, 1)]) 0x8121).reg 1 = 0xFF#8 ∧ (after (with_ [(1, 0xF0), (2, 0x0F), (15, 1)]) 0x8121).reg 15 = 0#8 := by decide
/-- AL7 -/
theorem test_orReg_into_vf : (after (with_ [(15, 0x55), (2, 0xAA)]) 0x8F21).reg 15 = 0#8 := by decide
/-- AL5 -/
theorem test_andReg : (after (with_ [(1, 0xF0), (2, 0x3C), (15, 1)]) 0x8122).reg 1 = 0x30#8 := by decide
/-- AL6 -/
theorem test_xorReg : (after (with_ [(1, 0xFF), (2, 0x0F), (15, 1)]) 0x8123).reg 1 = 0xF0#8 := by decide
/-- AL8 -/
theorem test_addReg_carries : (after (with_ [(1, 0xFF), (2, 0x01)]) 0x8124).reg 1 = 0#8 ∧ (after (with_ [(1, 0xFF), (2, 0x01)]) 0x8124).reg 15 = 1#8 := by decide
/-- AL10 -/
theorem test_addReg_into_vf : (after (with_ [(15, 0xF0), (1, 0x20)]) 0x8F14).reg 15 = 1#8 := by decide
/-- AL13 -/
theorem test_subReg_borrows : (after (with_ [(1, 3), (2, 5)]) 0x8125).reg 1 = 0xFE#8 ∧ (after (with_ [(1, 3), (2, 5)]) 0x8125).reg 15 = 0#8 := by decide
/-- AL14 -/
theorem test_subReg_equal : (after (with_ [(1, 7), (2, 7)]) 0x8125).reg 15 = 1#8 := by decide
/-- AL18 -/
theorem test_shrReg_reads_vy : (after (with_ [(1, 0xAA), (2, 0x05)]) 0x8126).reg 1 = 0x02#8 ∧ (after (with_ [(1, 0xAA), (2, 0x05)]) 0x8126).reg 15 = 1#8 := by decide
/-- AL16 -/
theorem test_subnReg : (after (with_ [(1, 3), (2, 5)]) 0x8127).reg 1 = 0x02#8 ∧ (after (with_ [(1, 3), (2, 5)]) 0x8127).reg 15 = 1#8 := by decide
/-- AL22 -/
theorem test_shlReg : (after (with_ [(2, 0x81)]) 0x812E).reg 1 = 0x02#8 ∧ (after (with_ [(2, 0x81)]) 0x812E).reg 15 = 1#8 := by decide
/-- TR4 -/
theorem test_ldI : (after (with_ []) 0xA123).i = 0x123#16 := by decide
/-- CT8 -/
theorem test_jpV0 : (after (with_ [(0, 0xFF)]) 0xBFFF).pc = 0x10FE#16 := by decide
/-- CT10 -/
theorem test_jpV0_ignores_x : (after (with_ [(1, 0x05)]) 0xB100).pc = 0x100#16 := by decide
/-- RN2 -/
theorem test_rnd_zero_mask : (after (with_ [(3, 0x55)]) 0xC300).pc = 0x202#16 ∧ (after (with_ [(3, 0x55)]) 0xC300).draws = 1 := by decide
/-- DS5 -/
theorem test_drw_wraps_the_row : (after (with_ [(0, 60)] 0x300 [(0x300, 0xFF)]) 0xD011).fb[0] = 0xF00000000000000F#64 := by decide
/-- DS9 -/
theorem test_drw_collides : (after { with_ [] 0x300 [(0x300, 0xC0)] with fb := Display.clear.flip 1 0 } 0xD011).fb[0] = 1#64 ∧ (after { with_ [] 0x300 [(0x300, 0xC0)] with fb := Display.clear.flip 1 0 } 0xD011).reg 15 = 1#8 := by decide
/-- DS7 -/
theorem test_drw_column_is_old_vf : (after (with_ [(15, 3)] 0x300 [(0x300, 0x80)]) 0xDF01).fb.cell 3 0 = true := by decide
/-- DS4 -/
theorem test_drw_out_of_range : (after (with_ [(15, 1)] 0xFFE) 0xD013).mode = .halted (.outOfBoundsAccess 0x1000#16 0x200#16) := by decide
/-- KP1 -/
theorem test_skp_low_nibble : (after { with_ [(1, 0x1A)] with key := (Vector.replicate 16 false).set 10 true } 0xE19E).pc = 0x204#16 := by decide
/-- KP4 -/
theorem test_sknp_pressed : (after { with_ [(1, 0x0A)] with key := (Vector.replicate 16 false).set 10 true } 0xE1A1).pc = 0x202#16 := by decide
/-- TM1 -/
theorem test_ldVxDT : (after { with_ [] with dt := 5 } 0xF507).reg 5 = 5#8 := by decide
/-- KP5 -/
theorem test_ldVxK_waits_without_polling : (after { with_ [] with key := (Vector.replicate 16 false).set 3 true } 0xF40A).mode = .waitingForKey 4 ∧ (after { with_ [] with key := (Vector.replicate 16 false).set 3 true } 0xF40A).pc = 0x200#16 := by decide
/-- KP8 -/
theorem test_poll_smallest_key : (afterEvent { with_ [] with mode := .waitingForKey 4, key := ((Vector.replicate 16 false).set 12 true).set 10 true } .cycle).reg 4 = 0x0A#8 := by decide
/-- TM2 -/
theorem test_ldDTVx : (after (with_ [(3, 7)]) 0xF315).dt = 7#8 := by decide
/-- TM3 -/
theorem test_ldSTVx : (after (with_ [(2, 3)]) 0xF218).st = 3#8 ∧ (after (with_ [(2, 3)]) 0xF218).soundActive = true := by decide
/-- AL28 -/
theorem test_addI_past_memory : (after (with_ [(1, 1)] 0x0FFF) 0xF11E).i = 0x1000#16 := by decide
/-- AL29 -/
theorem test_addI_wraps : (after (with_ [(2, 2)] 0xFFFF) 0xF21E).i = 0x0001#16 := by decide
/-- FN2 -/
theorem test_ldF : (after (with_ [(1, 0x1A)]) 0xF129).i = 0x082#16 := by decide
/-- TR8 -/
theorem test_ldB : (after (with_ [(1, 99)] 0xFFD) 0xF133).mem = [(0x200, 0xF1#8), (0x201, 0x33#8), (0xFFE, 9#8), (0xFFF, 9#8)] := by decide
/-- TR9 -/
theorem test_ldB_out_of_range : (after (with_ [(1, 99)] 0xFFE) 0xF133).mode = .halted (.outOfBoundsAccess 0x1000#16 0x200#16) := by decide
/-- TR10 -/
theorem test_ldMemVx : Memory.read (after (with_ [(0, 0xAB)] 0x300) 0xF055).mem 0x300 = 0xAB#8 ∧ (after (with_ [(0, 0xAB)] 0x300) 0xF055).i = 0x301#16 := by decide
/-- TR12 -/
theorem test_ldMemVx_out_of_range : (after (with_ [] 0xFF1) 0xFF55).mode = .halted (.outOfBoundsAccess 0x1000#16 0x200#16) := by decide
/-- TR14 -/
theorem test_ldVxMem : (after (with_ [] 0x050) 0xFF65).v.toList = [0xF0, 0x90, 0x90, 0x90, 0xF0, 0x20, 0x60, 0x20, 0x20, 0x70, 0xF0, 0x10, 0xF0, 0x80, 0xF0, 0xF0] ∧ (after (with_ [] 0x050) 0xFF65).i = 0x060#16 := by decide
/-- TR15 -/
theorem test_ldVxMem_out_of_range : (after (with_ [(0, 9)] 0xFFE) 0xF265).reg 0 = 9#8 := by decide
/-- FD1 -/
theorem test_fetch_at_the_last_byte : (afterEvent { with_ [] with pc := 0xFFF } .cycle).mode = .halted (.outOfBoundsAccess 0x1000#16 0xFFF#16) := by decide
/-- CT8 -/
theorem test_fetch_past_memory : (afterEvent { with_ [] with pc := 0x10FE } .cycle).mode = .halted (.outOfBoundsAccess 0x10FE#16 0x10FE#16) := by decide
/-- FD4 -/
theorem test_fetch_at_an_odd_pc : (afterEvent (with_ [] 0 [(0x201, 0x12), (0x202, 0x34)] |> fun s => { s with pc := 0x201 }) .cycle).pc = 0x234#16 := by decide
/-- TM4 -/
theorem test_tick : (afterEvent { with_ [] with dt := 5, st := 1 } .timerTick).dt = 4#8 ∧ (afterEvent { with_ [] with dt := 5, st := 1 } .timerTick).soundActive = false := by decide
/-- L1.2 -/
theorem test_load_places_bytes : (afterEvent (with_ []) (.loadProgram [0x12, 0x00])).mem = [(0x200, 0x12#8)] := by decide

/-- FD5, FD6, FD7: what the spec refuses. -/
theorem test_refusals :
    step { State.reset with mode := .halted (.programTooLarge 3585) } = .refused .cycleWhileHalted ∧
    step { State.reset with loadOpen := false, schedule := [.loadProgram []] } = .refused .loadNotOpen ∧
    step { State.reset with schedule := [.setKeyState 16 true] } = .refused .noSuchKey := ⟨rfl, rfl, rfl⟩

end Sys2Proof.Tests

/-! ## Witnesses: for each statement with hypotheses, states and operands that meet them together, clause by clause -/

namespace Sys2Proof.Tests

/-- A state that differs from reset in its pending events alone meets the invariant. -/
theorem inv_of_fresh (es : List Event) : ({ State.reset with schedule := es } : State).Inv where
  memCanonical := rfl
  pcBounded := (by decide : (0x200#16).toNat ≤ 0x10FE)
  stackBounded := (by decide : ∀ j (h : j < 16), (State.reset.stack[j]).toNat ≤ 0x1000)
  waitsAtItsInstruction := fun _ h => nomatch h
  haltsAtItsFault := fun _ _ h => nomatch h
  freshWhileLoadOpen := fun _ => rfl

/-- A reset state whose load was turned away, with events pending. -/
def tooLargeLoaded (es : List Event) : State :=
  { State.reset with mode := .halted (.programTooLarge 3585), loadOpen := false, schedule := es }

theorem inv_of_tooLargeLoaded (es : List Event) : (tooLargeLoaded es).Inv where
  memCanonical := rfl
  pcBounded := (by decide : (0x200#16).toNat ≤ 0x10FE)
  stackBounded := (by decide : ∀ j (h : j < 16), (State.reset.stack[j]).toNat ≤ 0x1000)
  waitsAtItsInstruction := fun _ h => nomatch h
  haltsAtItsFault := fun f p h hp => by cases h; cases hp
  freshWhileLoadOpen := fun h => nomatch h

theorem witness_DecodeOfEncode : ∃ i : Instr, i.wellFormed = true ∧ encode i = 0x0123#16 := ⟨.sys 0x123, by decide⟩
theorem witness_EncodeOfDecode : ∃ (op : Word) (i : Instr), decode op = .ok i := ⟨0x8FF4, .addReg 15 15, by decide⟩
/-- a word of each undefined row, and a word that is none -/
theorem witness_RejectedWords :
    (∀ op ∈ [0x500F#16, 0x8008#16, 0x9001#16, 0xE09D#16, 0xF066#16], ∃ e, decode op = .error e) ∧ ¬ ∃ e, decode 0xF065#16 = .error e := by
  refine ⟨?_, fun ⟨e, h⟩ => nomatch h⟩
  intro op h; fin_cases h <;> exact ⟨_, rfl⟩
/-- the last pc an instruction can stand at -/
theorem witness_StepRuns : ∃ (s : State) (i : Instr), s.executesNext i ∧ s.pc = 0xFFE#16 :=
  ⟨{ with_ [] 0 [(0xFFE, 0x62), (0xFFF, 0x2A)] with pc := 0xFFE }, .ldImm 2 0x2A, by decide⟩
theorem witness_FetchOutside :
    ∀ pc ∈ [0x0FFF#16, 0x1000#16, 0xFFFF#16], ∃ s : State, s.nextIsCycle ∧ s.mode = .running ∧ s.pc = pc := by
  intro pc _; exact ⟨{ State.reset with pc := pc }, .inl rfl, rfl, rfl⟩
theorem witness_UnknownWord :
    (∃ (s : State) (op : Word), s.nextIsCycle ∧ s.mode = .running ∧ s.pc.toNat + 1 < 4096 ∧
      op = Memory.read s.mem s.pc.toNat ++ Memory.read s.mem (s.pc.toNat + 1) ∧ ∃ e, decode op = .error e) ∧
    (∃ (s t : State) (op : Word), s.nextIsCycle ∧ s.mode = .running ∧ s.pc.toNat + 1 < 4096 ∧
      op = Memory.read s.mem s.pc.toNat ++ Memory.read s.mem (s.pc.toNat + 1) ∧ (∃ nnn, decode op = .ok (.sys nnn)) ∧
      step s = .next t ∧ t.nextIsCycle) :=
  ⟨⟨{ with_ [] 0 [(0xFFE, 0xFF), (0xFFF, 0xFF)] with pc := 0xFFE }, 0xFFFF, .inl rfl, rfl, by decide, by decide, _, rfl⟩,
    State.reset, _, 0, .inl rfl, rfl, by decide, by decide, ⟨0, by decide⟩, rfl, .inl rfl⟩
theorem witness_Poll :
    (∃ (s : State) (x : Reg), s.nextIsCycle ∧ s.mode = .waitingForKey x ∧ ∀ k (h : k < 16), s.key[k] = false) ∧
    (∀ k, k = 0 ∨ k = 15 → ∃ (s : State) (x : Reg) (h : k < 16), s.nextIsCycle ∧ s.mode = .waitingForKey x ∧ s.key[k] = true ∧
      ∀ j (hj : j < k), s.key[j] = false) := by
  refine ⟨⟨{ State.reset with mode := .waitingForKey 15 }, 15, .inl rfl, rfl, by decide⟩, ?_⟩
  rintro k (rfl | rfl)
  · exact ⟨{ State.reset with mode := .waitingForKey 4, key := Vector.replicate 16 true }, 4, by decide, .inl rfl, rfl, by decide, by decide⟩
  · exact ⟨{ State.reset with mode := .waitingForKey 4, key := (Vector.replicate 16 false).set 15 true }, 4, by decide, .inl rfl, rfl,
      by decide, by decide⟩
theorem witness_KeyWaitGoesOn : ∃ (s : State) (x : Reg), s.mode = .waitingForKey x ∧ (∀ k (h : k < 16), s.key[k] = false) ∧
    s.schedule = [] ∧ s.loadOpen = false :=
  ⟨{ State.reset with mode := .waitingForKey 0, loadOpen := false }, 0, rfl, by decide, rfl, rfl⟩
theorem witness_HaltedTakesNoCycle :
    (∃ (s : State) (f : FaultRecord), s.nextIsCycle ∧ s.mode = .halted f) ∧ (∃ s t : State, s.nextIsCycle ∧ step s = .next t) :=
  ⟨⟨tooLargeLoaded [.cycle], _, .inr rfl, rfl⟩, State.reset, _, .inl rfl, rfl⟩

theorem witness_Ticks : ∃ (s : State) (rest : List Event), s.schedule = List.replicate 5 .timerTick ++ rest ∧ s.dt.toNat = 3 ∧
    s.st.toNat = 255 :=
  ⟨{ State.reset with dt := 3, st := 255, schedule := List.replicate 5 .timerTick ++ [.snapshot] }, [.snapshot], by decide⟩
theorem witness_SetKey : ∀ k, k = 15 ∨ k = 16 → ∃ (s : State) (b : Bool) (rest : List Event), s.schedule = .setKeyState k b :: rest :=
  fun k _ => ⟨{ State.reset with schedule := [.setKeyState k true] }, true, [], rfl⟩
theorem witness_Load :
    (∀ n, n = 0 ∨ n = 3584 → ∃ (s : State) (bytes : List Byte) (rest : List Event),
      s.schedule = .loadProgram bytes :: rest ∧ s.loadOpen = true ∧ bytes.length = n) ∧
    (∃ (s : State) (bytes : List Byte) (rest : List Event), s.schedule = .loadProgram bytes :: rest ∧ s.loadOpen = false) :=
  ⟨fun n _ => ⟨{ State.reset with schedule := [.loadProgram (List.replicate n 0x12)] }, _, _, rfl, rfl, List.length_replicate⟩,
    tooLargeLoaded [.loadProgram []], [], [], rfl, rfl⟩
theorem witness_ProgramTooLarge : ∃ (s : State) (bytes : List Byte) (rest : List Event), s.Inv ∧
    s.schedule = .loadProgram bytes :: rest ∧ s.loadOpen = true ∧ bytes.length = 3585 :=
  ⟨{ State.reset with schedule := [.loadProgram (List.replicate 3585 0)] }, _, _, inv_of_fresh _, rfl, rfl, List.length_replicate⟩
theorem witness_Reset : ∃ (s : State) (rest : List Event), s.schedule = .reset :: rest ∧ s.mode = .halted (.programTooLarge 3585) :=
  ⟨tooLargeLoaded [.reset, .cycle], [.cycle], rfl, rfl⟩
theorem witness_Snapshot : ∃ (s : State) (rest : List Event), s.schedule = .snapshot :: rest := ⟨tooLargeLoaded [.snapshot], [], rfl⟩

theorem witness_Jp :
    (∃ (s : State) (nnn : Addr12), s.pc.toNat = nnn.toNat) ∧
    (∃ s t : State, exec (.jp 0xFFF#12) s = .next t ∧ t.mode = .running ∧ t.nextIsCycle) :=
  ⟨⟨State.reset, 0x200, by decide⟩, State.reset, _, rfl, rfl, .inl rfl⟩
theorem witness_Call : ∀ n : Fin 17, n = 0 ∨ n = 15 ∨ n = 16 → ∃ s : State, s.sp = n := fun n _ => ⟨{ State.reset with sp := n }, rfl⟩
theorem witness_Ret : ∀ n : Fin 17, n = 0 ∨ n = 1 ∨ n = 16 → ∃ s : State, s.sp = n := fun n _ => ⟨{ State.reset with sp := n }, rfl⟩
theorem witness_RetResumes : ∃ s t u : State, s.sp.val < 16 ∧ s.sp.val = 15 ∧ exec (.call 0x300#12) s = .next t ∧ u.sp = t.sp ∧
    u.stack = t.stack ∧ u.pc ≠ t.pc :=
  ⟨{ State.reset with sp := 15 }, _, { State.reset with sp := 16, stack := (Vector.replicate 16 0).set 15 0x202, pc := 0x400 },
    by decide, rfl, rfl, rfl, rfl, by decide⟩
theorem witness_SixteenNested : ∃ (s : State) (targets : List Addr12), s.sp.val = 0 ∧ targets.length = 16 :=
  ⟨State.reset, List.replicate 16 0x300, rfl, rfl⟩
theorem witness_Sys : ∃ nnn : Addr12, nnn ≠ 0x0E0#12 ∧ nnn ≠ 0x0EE#12 ∧ nnn = 0x0E1#12 := by decide
theorem witness_RegisterSkips : ∃ n : Fin 16, n ≠ 0 ∧ n = 15 := by decide
theorem witness_KeySkips : ∀ k, k = 0 ∨ k = 15 → ∃ (x : Reg) (s : State), k < 16 ∧ (s.reg x).toNat % 16 = k := by
  rintro k (rfl | rfl)
  · exact ⟨0, with_ [(0, 0xF0)], by decide⟩
  · exact ⟨15, with_ [(15, 0xFF)], by decide⟩

/-- the premises on registers of the arithmetic, transfer, random and timer statements -/
theorem witness_RegisterPremises : ∃ x r : Reg, x ≠ 15 ∧ r ≠ x ∧ r ≠ 15 ∧ x = 14 := by decide
theorem witness_LogicalOperations : ∃ (x y : Reg) (c : Instr × (Bool → Bool → Bool)), x ≠ 15 ∧
    c ∈ [(Instr.orReg x y, (fun a b => a || b : Bool → Bool → Bool)), (Instr.andReg x y, fun a b => a && b),
        (Instr.xorReg x y, fun a b => a != b)] ∧ c.1 = .xorReg 14 15 := ⟨14, 15, (.xorReg 14 15, fun a b => a != b), by decide, by simp, rfl⟩
theorem witness_Bcd : ∀ i ∈ [0xFFD#16, 0xFFE#16, 0x1000#16, 0xFFFF#16],
    ∃ s : State, s.i = i ∧ (s.i.toNat + 2 < 4096 ∨ 4096 ≤ s.i.toNat + 2) ∧ (s.i.toNat + 2 < 4096 ↔ i = 0xFFD) := by
  intro i h; fin_cases h <;> exact ⟨with_ [] _, rfl, by decide, by decide⟩
/-- BlockStore, BlockLoad and BlockStoreThenLoad, up to the last byte of memory -/
theorem witness_Block : ∃ (x r q : Reg) (s : State), s.i.toNat + x.val < 4096 ∧ r ≤ x ∧ x < q ∧ s.i.toNat + x.val = 4095 :=
  ⟨14, 14, 15, with_ [] 0xFF1, by decide⟩
theorem witness_FetchSees : ∃ (x r q : Reg) (s : State), s.i.toNat + x.val < 4096 ∧ q.val = r.val + 1 ∧ q ≤ x ∧
    s.i.toNat + x.val = 4095 := ⟨15, 14, 15, with_ [] 0xFF0, by decide⟩
theorem witness_DataAccess : ∀ p ∈ [(0, 0xFFE#16), (1, 0xFF1#16), (2, 0x1000#16), (3, 0xFFFF#16)],
    ∃ (x y : Reg) (n : Fin 16) (s : State) (c : Instr × Nat),
      c ∈ [(Instr.ldB x, 3), (Instr.ldMemVx x, x.val + 1), (Instr.ldVxMem x, x.val + 1), (Instr.drw x y n, n.val)] ∧
      ([(Instr.ldB x, 3), (Instr.ldMemVx x, x.val + 1), (Instr.ldVxMem x, x.val + 1), (Instr.drw x y n, n.val)])[p.1]? = some c ∧
      0 < c.2 ∧ 4096 < s.i.toNat + c.2 ∧ s.i = p.2 := by
  intro p h; fin_cases h
  · exact ⟨15, 0, 15, with_ [] 0xFFE, (.ldB 15, 3), by decide⟩
  · exact ⟨15, 0, 15, with_ [] 0xFF1, (.ldMemVx 15, 16), by decide⟩
  · exact ⟨0, 0, 15, with_ [] 0x1000, (.ldVxMem 0, 1), by decide⟩
  · exact ⟨15, 0, 15, with_ [] 0xFFFF, (.drw 15 0 15, 15), by decide⟩
theorem witness_Random : ∃ (nn mm : Byte) (x r : Reg), nn = 0 ∧ mm = 0xFF#8 ∧ r ≠ x := ⟨0, 0xFF, 0, 15, by decide⟩

/-- The glyph of 0 to be drawn at cell (0, 0), over a display. -/
def drawing (fb : Display) : State := { with_ [] 0x050 with fb := fb }

/-- The premise on I: no row, up to the last byte of memory, and out of range at once and later. -/
theorem witness_DrawRange :
    (∃ (s : State) (n : Fin 16), s.i = 0xFFFF#16 ∧ (n.val = 0 ∨ s.i.toNat + n.val ≤ 4096)) ∧
    (∃ (s : State) (n : Fin 16), s.i.toNat + n.val = 4096 ∧ n = 15 ∧ (n.val = 0 ∨ s.i.toNat + n.val ≤ 4096)) ∧
    (∃ (s : State) (n : Fin 16), 0 < n.val ∧ 4096 < s.i.toNat + n.val ∧ s.i = 0xFFF#16) ∧
    (∃ (s : State) (n : Fin 16), 0 < n.val ∧ 4096 < s.i.toNat + n.val ∧ s.i = 0x1000#16) :=
  ⟨⟨with_ [] 0xFFFF, 0, by decide⟩, ⟨with_ [] 0xFF1, 15, by decide⟩, ⟨with_ [] 0xFFF, 2, by decide⟩, with_ [] 0x1000, 1, by decide⟩
/-- A cell the sprite paints and one it does not, a collision, and a draw over cleared cells. -/
theorem witness_Draw :
    ((drawing Display.clear).spritePaints 0 0 1 3 0 ∧ ¬ (drawing Display.clear).spritePaints 0 0 1 4 0) ∧
    (∃ px < 64, ∃ py < 32, (drawing (Display.clear.flip 3 0)).spritePaints 0 0 1 px py ∧
      (drawing (Display.clear.flip 3 0)).fb.cell px py = true) ∧
    (∀ px < 64, ∀ py < 32, (drawing Display.clear).spritePaints 0 0 1 px py → (drawing Display.clear).fb.cell px py = false) := by
  refine ⟨⟨⟨0, by decide, 3, by decide, by decide, by decide, by decide⟩, ?_⟩,
    ⟨3, by decide, 0, by decide, ⟨0, by decide, 3, by decide, by decide, by decide, by decide⟩, by decide⟩,
    fun px _ py _ _ => Display.cell_clear px py⟩
  unfold State.spritePaints; decide
theorem witness_DrawTwice : ∃ (s : State) (n : Fin 16), s.i.toNat + n.val ≤ 4096 ∧ s.i.toNat + n.val = 4096 ∧ n = 1 :=
  ⟨with_ [] 0xFFF, 1, by decide⟩

theorem witness_EveryStepKeepsTheInvariant : ∃ s t : State, s.Inv ∧ step s = .next t ∧ t.mode ≠ s.mode :=
  ⟨_, _, inv_of_fresh [.cycle], rfl, by decide⟩
theorem witness_HaltedIsLeft : ∀ e ∈ [Event.timerTick, .setKeyState 15 true, .snapshot, .reset],
    ∃ (s t : State) (f : FaultRecord), s.Inv ∧ s.mode = .halted f ∧ step s = .next t ∧ s.schedule = [e] := by
  intro e h; fin_cases h <;> exact ⟨_, _, _, inv_of_tooLargeLoaded [_], rfl, rfl, rfl⟩
theorem witness_FaultingCycle : ∃ (s t : State) (f : FaultRecord), s.nextIsCycle ∧ s.mode = .running ∧ step s = .next t ∧ t.mode = .halted f :=
  ⟨State.reset, _, _, .inl rfl, rfl, rfl, rfl⟩
theorem witness_StateIsWritten :
    (∀ i ∈ [Instr.ldI 1, .addI 1, .ldF 1, .ldMemVx 1, .ldVxMem 1], ∃ s t : State, exec i s = .next t ∧ t.i ≠ s.i) ∧
    (∃ s t : State, exec .ret s = .next t ∧ t.sp ≠ s.sp) ∧
    (∃ s t : State, exec (.call 1) s = .next t ∧ t.sp ≠ s.sp ∧ t.stack ≠ s.stack) ∧
    (∃ s t : State, exec (.ldDTVx 1) s = .next t ∧ t.dt ≠ s.dt) ∧ (∃ s t : State, exec (.ldSTVx 1) s = .next t ∧ t.st ≠ s.st) ∧
    (∃ s t : State, exec (.drw 0 0 1) s = .next t ∧ t.fb ≠ s.fb) ∧
    (∀ i ∈ [Instr.ldB 1, .ldMemVx 1], ∃ s t : State, exec i s = .next t ∧ t.mem ≠ s.mem) ∧
    (∃ s t : State, exec (.rnd 1 2) s = .next t ∧ t.draws ≠ s.draws) := by
  refine ⟨?_, ⟨{ State.reset with sp := 1 }, _, rfl, by decide⟩, ⟨State.reset, _, rfl, by decide⟩,
    ⟨with_ [(1, 1)], _, rfl, by decide⟩, ⟨with_ [(1, 1)], _, rfl, by decide⟩, ⟨drawing Display.clear, _, rfl, by decide⟩, ?_,
    ⟨State.reset, _, rfl, Nat.succ_ne_self 0⟩⟩
  · intro i h; fin_cases h <;> exact ⟨with_ [(1, 1)], _, rfl, by decide⟩
  · intro i h; fin_cases h <;> exact ⟨with_ [(1, 1)], _, rfl, by decide⟩
theorem witness_NoInstructionReads : (∃ i : Instr, ∀ x, i ≠ .ldSTVx x) ∧ (∃ (i : Instr) (x : Reg), i = .ldSTVx x) :=
  ⟨⟨.cls, fun _ h => nomatch h⟩, .ldSTVx 15, 15, rfl⟩
theorem witness_StaleStack : ∃ (s : State) (stack : Vector Word 16), (∀ j (h : j < 16), j < s.sp.val → stack[j] = s.stack[j]) ∧
    s.sp = 1 ∧ stack[1] ≠ s.stack[1] :=
  ⟨{ State.reset with sp := 1 }, (Vector.replicate 16 0xBEEF).set 0 0, by decide⟩
theorem witness_DelayTimer : ∃ s t : State, step s = .next t ∧ s.dt.toNat < t.dt.toNat :=
  ⟨(with_ [(3, 7)]).withFetchWord 16 0xF315, _, rfl, by decide⟩
theorem witness_Keys : ∃ s t : State, step s = .next t ∧ t.key ≠ s.key :=
  ⟨tooLargeLoaded [.setKeyState 15 true], _, rfl, by decide⟩

end Sys2Proof.Tests
end

section
/-! PROOFS. Call and return (40_control_transfer.md): what `exec` answers in each case of the stack check, and the statements
about them. -/

namespace Sys2Proof

@[simp] theorem Addr12.toNat_zext (a : Addr12) : a.zext.toNat = a.toNat :=
  BitVec.toNat_setWidth_of_le (by decide)

theorem decode_call (nnn : Addr12) : decode (fmtA 0x2 nnn) = .ok (.call nnn) := by
  unfold decode
  rw [opC_fmtA, opNNN_fmtA]
  rfl

namespace Machine

/-! ## The two cases of CALL and of RET -/

/-- CALL with room on the stack (R121): push the address after the call, and jump. -/
theorem exec_call_of_lt (nnn : Addr12) {s : State} (h : s.sp.val < 16) :
    exec (.call nnn) s =
      .next { s with stack := s.stack.set s.sp.val (s.pc + 2), sp := ⟨s.sp.val + 1, Nat.succ_lt_succ h⟩, pc := nnn.zext } :=
  dif_pos h

/-- CALL on a full stack (R122): the fault alone. -/
theorem exec_call_of_full (nnn : Addr12) {s : State} (h : s.sp.val = 16) :
    exec (.call nnn) s = .next { s with mode := .halted (.stackOverflow (encode (.call nnn)) s.pc) } :=
  dif_neg (Nat.not_lt.mpr h.ge)

/-- RET on a stack that is not empty (R124): the top entry goes to pc and stays in the stack. -/
theorem exec_ret_of_pos {s : State} (h : 0 < s.sp.val) :
    exec .ret s =
      .next { s with sp := ⟨s.sp.val - 1, Nat.lt_of_le_of_lt (Nat.sub_le _ _) s.sp.isLt⟩,
                     pc := s.stack[s.sp.val - 1]'(Nat.sub_one_lt_of_le h (Nat.le_of_lt_succ s.sp.isLt)) } :=
  dif_pos h

/-- RET on an empty stack (R125): the fault alone. -/
theorem exec_ret_of_empty {s : State} (h : s.sp.val = 0) :
    exec .ret s = .next { s with mode := .halted (.stackUnderflow 0x00EE#16 s.pc) } :=
  dif_neg (Nat.not_lt.mpr h.le)

/-! ## Instructions one after another -/

theorem execAll_cons_of_next {i : Instr} {s t : State} (rest : List Instr) (h : exec i s = .next t) :
    execAll (i :: rest) s = execAll rest t := by
  simp only [execAll, h]

/-- Calls for which there is room all succeed: each takes one stack entry, and none touches MODE. -/
theorem execAll_calls (targets : List Addr12) (s : State) (room : s.sp.val + targets.length ≤ 16) :
    Completes (execAll (targets.map .call) s) fun t => t.sp.val = s.sp.val + targets.length ∧ t.mode = s.mode := by
  induction targets generalizing s with
  | nil => exact ⟨s, rfl, rfl, rfl⟩
  | cons nnn rest ih =>
    rw [List.length_cons] at room ⊢
    obtain ⟨u, first, hsp, hmode⟩ : Completes (exec (.call nnn) s) fun u => u.sp.val = s.sp.val + 1 ∧ u.mode = s.mode :=
      ⟨_, exec_call_of_lt nnn (by omega), rfl, rfl⟩
    obtain ⟨t, run, hsp', hmode'⟩ := ih u (by omega)
    exact ⟨t, (execAll_cons_of_next _ first).trans run, by omega, hmode'.trans hmode⟩

/-! ## The statements -/

/-- Settles O18, by the two cases of the stack check. -/
theorem callPushesOrOverflows : Obligations.CallPushesOrOverflows := by
  intro nnn s
  refine ⟨decode_call nnn, fun room => ?_, fun full => exec_call_of_full nnn full⟩
  rw [exec_call_of_lt nnn room, completes_next]
  refine ⟨Vector.getElem_set_self _, fun j _ hne => Vector.getElem_set_ne room _ hne.symm, rfl, nnn.toNat_zext, ?_⟩
  constructor <;> simp [State.reg]

/-- Settles O19, by the two cases of the stack check. -/
theorem retPopsOrUnderflows : Obligations.RetPopsOrUnderflows := by
  refine ⟨rfl, fun s => ⟨fun nonempty => ?_, exec_ret_of_empty⟩⟩
  rw [exec_ret_of_pos nonempty, completes_next]
  refine ⟨rfl, rfl, ?_⟩
  constructor <;> simp [State.reg]

/-- Settles O21: `execAll_calls` fills the stack, and the next call finds it full. -/
theorem sixteenNestedCallsSucceed : Obligations.SixteenNestedCallsSucceed := by
  intro s targets nnn empty sixteen
  obtain ⟨t, run, hsp, hmode⟩ := execAll_calls targets s (by omega)
  have full : t.sp.val = 16 := by omega
  exact ⟨t, run, full, hmode, exec_call_of_full nnn full⟩

end Machine
end Sys2Proof
end

section
/-! PROOFS. The sum of two registers and its carry (42_arithmetic.md R156): the decoding of `8XY4`, the frame of an operation
that writes a result and then the flag, what the two bytes are as numbers, and the statement about `8XY4`. -/

namespace Sys2Proof

theorem decode_addReg (x y : Reg) : decode (fmtXYN 0x8 x y 4) = .ok (.addReg x y) := by
  unfold decode
  rw [opC_fmtXYN]
  change decodeAlu _ = _
  unfold decodeAlu
  rw [opN_fmtXYN, opX_fmtXYN, opY_fmtXYN]
  rfl

namespace Machine

theorem State.writeResultThenFlag_changesOnly (s : State) (x : Reg) (a f : Byte) :
    ChangesOnly [.v, .pc] s (s.writeResultThenFlag x a f) := by
  constructor <;> simp

/-! ## The result and the carry as numbers -/

theorem toNat_flagByte (c : Bool) : (flagByte c).toNat = if c then 1 else 0 := by
  cases c <;> rfl

theorem toNat_addResult (a b : Byte) : (addResult a b).toNat = (a.toNat + b.toNat) % 256 :=
  BitVec.toNat_ofNat _ 8

theorem toNat_addCarry (a b : Byte) : (addCarry a b).toNat = if a.toNat + b.toNat > 255 then 1 else 0 := by
  simp only [addCarry, toNat_flagByte, decide_eq_true_eq]

/-! ## The instruction -/

theorem exec_addReg (x y : Reg) (s : State) :
    exec (.addReg x y) s =
      .next (s.writeResultThenFlag x (addResult (s.reg x) (s.reg y)) (addCarry (s.reg x) (s.reg y))) := rfl

/-- Settles O28: the operands are read before the writes, and the flag is written after the result, so it stays when x = F. -/
theorem addRegistersSetsCarry : Obligations.AddRegistersSetsCarry := by
  intro x y s
  refine ⟨decode_addReg x y, ?_⟩
  rw [exec_addReg, completes_next]
  refine ⟨fun hx => ?result, ?carry, fun r hrx hrf => ?others, rfl, s.writeResultThenFlag_changesOnly x _ _⟩
  case result => rw [State.writeResultThenFlag_result s _ _ hx, toNat_addResult]
  case carry => rw [State.writeResultThenFlag_vf, toNat_addCarry]
  case others => exact State.writeResultThenFlag_other s _ _ hrx hrf

end Machine
end Sys2Proof
end

section
/-! PROOFS. Clearing the display (45_display.md R205): what `exec` answers for `00E0`, and the statement about it. -/

namespace Sys2Proof.Machine

/-- CLS (R205): the clear display, and the next pc. -/
theorem exec_cls (s : State) : exec .cls s = .next { s with fb := Display.clear, pc := s.pc + 2 } := rfl

theorem State.clearDisplay_changesOnly (s : State) :
    ChangesOnly [.fb, .pc] s { s with fb := Display.clear, pc := s.pc + 2 } := by
  constructor <;> simp [State.reg]

/-- Settles O43: the display written is `Display.clear`, whose every cell is 0. -/
theorem clsClearsEveryCell : Obligations.ClsClearsEveryCell := by
  refine ⟨rfl, fun s => ?_⟩
  rw [exec_cls, completes_next]
  exact ⟨Display.cell_clear, rfl, s.clearDisplay_changesOnly⟩

end Sys2Proof.Machine
end

section
/-! PROOFS. The decoder and the encoder (30_encoding.md sections 2 to 5): each is the other's inverse on the words that are
instructions, and the words that are none are those of the undefined rows. -/

namespace Sys2Proof

/-! ## A word from its row and its fields -/

theorem fmtA_of_opC {op : Word} {c : BitVec 4} (h : (opC op).toNat = c.toNat) : fmtA c (opNNN op) = op := by
  rw [← BitVec.eq_of_toNat_eq h, fmtA_fields]

theorem fmtXNN_of_fields {op : Word} {c : BitVec 4} {nn : Byte} (hc : (opC op).toNat = c.toNat)
    (hnn : (opNN op).toNat = nn.toNat) : fmtXNN c (opX op) nn = op := by
  rw [← BitVec.eq_of_toNat_eq hc, ← BitVec.eq_of_toNat_eq hnn, fmtXNN_fields]

theorem fmtXYN_of_fields {op : Word} {c : BitVec 4} {n : Fin 16} (hc : (opC op).toNat = c.toNat)
    (hn : (opN op).val = n.val) : fmtXYN c (opX op) (opY op) n = op := by
  rw [← BitVec.eq_of_toNat_eq hc, ← Fin.ext hn, fmtXYN_fields]

/-- Row F is the row of what the other fifteen leave. -/
theorem opC_eq_fifteen {op : Word} (h : ∀ k < 15, (opC op).toNat ≠ k) : (opC op).toNat = 15 := by
  have := (opC op).isLt
  have := h (opC op).toNat
  omega

/-! ## Decode after encode -/

theorem decodeSystem_fmtA {nnn : Addr12} (hcls : nnn ≠ 0x0E0#12) (hret : nnn ≠ 0x0EE#12) :
    decodeSystem (fmtA 0x0 nnn) = .ok (.sys nnn) := by
  have notCls : fmtA 0x0 nnn ≠ 0x00E0#16 := fun h => hcls ((opNNN_fmtA 0x0 nnn).symm.trans (congrArg opNNN h))
  have notRet : fmtA 0x0 nnn ≠ 0x00EE#16 := fun h => hret ((opNNN_fmtA 0x0 nnn).symm.trans (congrArg opNNN h))
  rw [decodeSystem, if_neg notCls, if_neg notRet, opNNN_fmtA]

/-- Settles O1, format by format: each field of the encoded word reads back as the operand put there, and the row and the
sub-opcode select the constructor. -/
theorem decodeOfEncodeIsTheInstruction : Obligations.DecodeOfEncodeIsTheInstruction := by
  intro i wellFormed
  cases i with
  | cls | ret => rfl
  | sys nnn =>
    simp only [Instr.wellFormed, Bool.and_eq_true, bne_iff_ne] at wellFormed
    rw [encode, decode, opC_fmtA]
    exact decodeSystem_fmtA wellFormed.1 wellFormed.2
  | jp | call | ldI | jpV0 => simp [encode, decode]
  | seImm | sneImm | ldImm | addImm | rnd => simp [encode, decode]
  | seReg | sneReg | drw => simp [encode, decode]
  | ldReg | orReg | andReg | xorReg | addReg | subReg | shrReg | subnReg | shlReg => simp [encode, decode, decodeAlu]
  | skp | sknp => simp [encode, decode, decodeKeySkip]
  | ldVxDT | ldVxK | ldDTVx | ldSTVx | addI | ldF | ldB | ldMemVx | ldVxMem => simp [encode, decode, decodeMisc]

/-! ## Encode after decode, row by row -/

/-- The instruction stands for the word: it is well formed, and the word is its encoding. -/
def Instr.StandsFor (i : Instr) (op : Word) : Prop := encode i = op ∧ i.wellFormed = true

theorem standsFor_of_decodeSystem {op : Word} {i : Instr} (hc : (opC op).toNat = 0) (h : decodeSystem op = .ok i) :
    i.StandsFor op := by
  unfold decodeSystem at h
  split at h
  case isTrue hop => cases h; exact ⟨hop.symm, rfl⟩
  case isFalse hcls =>
    split at h
    case isTrue hop => cases h; exact ⟨hop.symm, rfl⟩
    case isFalse hret =>
      cases h
      have word : fmtA 0x0 (opNNN op) = op := fmtA_of_opC hc
      refine ⟨word, ?_⟩
      have hcls' : opNNN op ≠ 0x0E0#12 := fun h => hcls (by rw [← word, h]; rfl)
      have hret' : opNNN op ≠ 0x0EE#12 := fun h => hret (by rw [← word, h]; rfl)
      simp [Instr.wellFormed, hcls', hret']

theorem standsFor_of_decodeAlu {op : Word} {i : Instr} (hc : (opC op).toNat = 8) (h : decodeAlu op = .ok i) :
    i.StandsFor op := by
  unfold decodeAlu at h
  split at h <;> cases h <;> exact ⟨fmtXYN_of_fields hc ‹_›, rfl⟩

theorem standsFor_of_decodeKeySkip {op : Word} {i : Instr} (hc : (opC op).toNat = 14) (h : decodeKeySkip op = .ok i) :
    i.StandsFor op := by
  unfold decodeKeySkip at h
  split at h <;> cases h <;> exact ⟨fmtXNN_of_fields hc ‹_›, rfl⟩

theorem standsFor_of_decodeMisc {op : Word} {i : Instr} (hc : (opC op).toNat = 15) (h : decodeMisc op = .ok i) :
    i.StandsFor op := by
  unfold decodeMisc at h
  split at h <;> cases h <;> exact ⟨fmtXNN_of_fields hc ‹_›, rfl⟩

/-- Settles O2, by the rows of the decoder: in each the instruction is made of the fields of the word, and a word is its row
and its fields. -/
theorem encodeOfDecodeIsTheWord : Obligations.EncodeOfDecodeIsTheWord := by
  intro op i h
  change i.StandsFor op
  unfold decode at h
  split at h
  case h_1 hc => exact standsFor_of_decodeSystem hc h
  case h_2 | h_3 | h_11 | h_12 => cases h; exact ⟨fmtA_of_opC ‹_›, rfl⟩
  case h_4 | h_5 | h_7 | h_8 | h_13 => cases h; exact ⟨fmtXNN_of_fields ‹_› rfl, rfl⟩
  case h_6 | h_10 =>
    split at h <;> cases h
    exact ⟨fmtXYN_of_fields ‹_› (congrArg Fin.val ‹_›), rfl⟩
  case h_9 hc => exact standsFor_of_decodeAlu hc h
  case h_14 => cases h; exact ⟨fmtXYN_of_fields ‹_› rfl, rfl⟩
  case h_15 hc => exact standsFor_of_decodeKeySkip hc h
  case h_16 => exact standsFor_of_decodeMisc (opC_eq_fifteen (by intro k hk; interval_cases k <;> assumption)) h

/-! ## The words that are no instruction -/

theorem decodeSystem_accepts (op : Word) : ¬ ∃ e, decodeSystem op = .error e := by
  unfold decodeSystem
  split_ifs <;> simp

theorem decodeAlu_rejects_iff (op : Word) :
    (∃ e, decodeAlu op = .error e) ↔ op.toNat % 16 ∈ [0x8, 0x9, 0xA, 0xB, 0xC, 0xD, 0xF] := by
  rw [← opN_val]
  unfold decodeAlu
  generalize opN op = n
  fin_cases n <;> simp

theorem decodeKeySkip_rejects_iff (op : Word) :
    (∃ e, decodeKeySkip op = .error e) ↔ op.toNat % 256 ∉ [0x9E, 0xA1] := by
  rw [← opNN_toNat]
  unfold decodeKeySkip
  split <;> simp_all

theorem decodeMisc_rejects_iff (op : Word) :
    (∃ e, decodeMisc op = .error e) ↔
      op.toNat % 256 ∉ [0x07, 0x0A, 0x15, 0x18, 0x1E, 0x29, 0x33, 0x55, 0x65] := by
  rw [← opNN_toNat]
  unfold decodeMisc
  split <;> simp_all

/-- Rows 5 and 9: a register pair whose low nibble is 0. -/
theorem ite_opN_rejects_iff (op : Word) (i : Instr) (err : DecodeError) :
    (∃ e, (if opN op = 0 then Except.ok i else Except.error err) = Except.error e) ↔ op.toNat % 16 ≠ 0 := by
  have hzero : opN op = 0 ↔ op.toNat % 16 = 0 := by rw [Fin.ext_iff, opN_val]; rfl
  by_cases h : opN op = 0 <;> simp [h, hzero.symm]

/-- Settles O3, by the rows of the decoder: the row is `op / 4096`, and within rows 5, 8, 9, E and F the low nibble or the low
byte decides. -/
theorem rejectedWordsAreTheUndefinedRows : Obligations.RejectedWordsAreTheUndefinedRows := by
  intro op
  rw [← opC_toNat]
  unfold decode
  split
  case h_1 hc => simp [hc, decodeSystem_accepts]
  case h_6 hc | h_10 hc => simp [hc, ite_opN_rejects_iff]
  case h_9 hc => simp [hc, decodeAlu_rejects_iff]
  case h_15 hc => simp [hc, decodeKeySkip_rejects_iff]
  case h_16 =>
    have hc : (opC op).toNat = 15 := opC_eq_fifteen (by intro k hk; interval_cases k <;> assumption)
    simp [hc, decodeMisc_rejects_iff]
  case h_2 hc | h_3 hc | h_4 hc | h_5 hc | h_7 hc | h_8 hc | h_11 hc | h_12 hc | h_13 hc | h_14 hc => simp [hc]

/-- Settles O4, by running the decoder on the ten words. -/
theorem decodeReadsWordsWrittenOut : Obligations.DecodeReadsWordsWrittenOut := by
  unfold Obligations.DecodeReadsWordsWrittenOut
  decide

end Sys2Proof
end

section
/-! PROOFS. What an instruction can do, said once for all 35: it answers a next state, which is a fault entry or differs in the
fields of its row (10_state.md section 8, 60_exceptions.md section 2); and what it cannot read. -/

namespace Sys2Proof.Machine

/-! ## The frame of each shape of update -/

theorem State.setMode_changesOnly (s : State) (m : Mode) : ChangesOnly [.mode] s { s with mode := m } := by
  constructor <;> simp [State.reg]

theorem State.setPc_changesOnly (s : State) (p : Word) : ChangesOnly [.pc] s { s with pc := p } := by
  constructor <;> simp [State.reg]

theorem State.skipIf_changesOnly (s : State) (c : Bool) : ChangesOnly [.pc] s (s.skipIf c) :=
  s.setPc_changesOnly _

theorem State.setReg_advance_changesOnly (s : State) (r : Reg) (b : Byte) :
    ChangesOnly [.v, .pc] s (s.setReg r b).advance := by
  constructor <;> simp

theorem State.setI_advance_changesOnly (s : State) (a : Word) :
    ChangesOnly [.i, .pc] s (State.advance { s with i := a }) := by
  constructor <;> simp [State.reg]

theorem State.setDt_advance_changesOnly (s : State) (b : Byte) :
    ChangesOnly [.dt, .pc] s (State.advance { s with dt := b }) := by
  constructor <;> simp [State.reg]

theorem State.setSt_advance_changesOnly (s : State) (b : Byte) :
    ChangesOnly [.st, .pc] s (State.advance { s with st := b }) := by
  constructor <;> simp [State.reg]

theorem State.draw_advance_changesOnly (s : State) (fb : Display) (r : Reg) (b : Byte) :
    ChangesOnly [.fb, .v, .pc] s (State.setReg { s with fb := fb } r b).advance := by
  constructor <;> simp

theorem State.takeDraw_advance_changesOnly (s : State) (r : Reg) (b : Byte) (n : Nat) :
    ChangesOnly [.v, .draws, .pc] s (State.advance { s.setReg r b with draws := n }) := by
  constructor <;> simp

theorem State.store_advance_changesOnly (s : State) (m : Memory) :
    ChangesOnly [.mem, .pc] s (State.advance { s with mem := m }) := by
  constructor <;> simp [State.reg]

theorem State.storeBlock_advance_changesOnly (s : State) (m : Memory) (a : Word) :
    ChangesOnly [.mem, .i, .pc] s (State.advance { s with mem := m, i := a }) := by
  constructor <;> simp [State.reg]

theorem State.loadBlock_advance_changesOnly (s : State) (v : Vector Byte 16) (a : Word) :
    ChangesOnly [.v, .i, .pc] s (State.advance { s with v := v, i := a }) := by
  constructor <;> simp

theorem State.push_changesOnly (s : State) (stack : Vector Word 16) (sp : Fin 17) (p : Word) :
    ChangesOnly [.stack, .sp, .pc] s { s with stack := stack, sp := sp, pc := p } := by
  constructor <;> simp [State.reg]

theorem State.pop_changesOnly (s : State) (sp : Fin 17) (p : Word) :
    ChangesOnly [.sp, .pc] s { s with sp := sp, pc := p } := by
  constructor <;> simp [State.reg]

/-! ## What an instruction writes -/

/-- `t` is the entry of a fault that `s` raises: MODE holds a record with the pc of `s`, and nothing else differs (R256,
R257). -/
def FaultEntry (s t : State) : Prop := ∃ f : FaultRecord, f.pc? = some s.pc ∧ t = { s with mode := .halted f }

theorem faultEntry_of_raise {f : FaultRecord} {s t : State} (hf : f.pc? = some s.pc) (h : raise f s = .next t) :
    FaultEntry s t := by
  cases h
  exact ⟨f, hf, rfl⟩

/-- The fields an instruction writes when it raises no fault. -/
def writes : Instr → List Field
  | .sys _ => []
  | .cls => [.fb, .pc]
  | .call _ => [.stack, .sp, .pc]
  | .ret => [.sp, .pc]
  | .jp _ | .jpV0 _ => [.pc]
  | .seImm _ _ | .sneImm _ _ | .seReg _ _ | .sneReg _ _ | .skp _ | .sknp _ => [.pc]
  | .ldImm _ _ | .addImm _ _ | .ldReg _ _ | .ldVxDT _ => [.v, .pc]
  | .orReg _ _ | .andReg _ _ | .xorReg _ _ | .addReg _ _ | .subReg _ _ => [.v, .pc]
  | .shrReg _ _ | .subnReg _ _ | .shlReg _ _ => [.v, .pc]
  | .ldI _ | .addI _ | .ldF _ => [.i, .pc]
  | .rnd _ _ => [.v, .draws, .pc]
  | .drw _ _ _ => [.fb, .v, .pc]
  | .ldVxK _ => [.mode]
  | .ldDTVx _ => [.dt, .pc]
  | .ldSTVx _ => [.st, .pc]
  | .ldB _ => [.mem, .pc]
  | .ldMemVx _ => [.mem, .i, .pc]
  | .ldVxMem _ => [.v, .i, .pc]

/-- `t` is as `s` in every field that is not named, and memory that is not named is the same data (`ChangesOnly` compares it
byte by byte). -/
structure WritesOnly (named : List Field) (s t : State) : Prop where
  frame : ChangesOnly named s t
  sameMemory : Field.mem ∉ named → t.mem = s.mem

/-- A guarded access faults or has its effect. -/
theorem guardRange_faults_or_writes {s e t : State} {bad : Option Nat} {fields : List Field}
    (h : guardRange s bad e = .next t) (he : WritesOnly fields s e) : FaultEntry s t ∨ WritesOnly fields s t := by
  rcases guardRange_cases h with ⟨-, rfl⟩ | ⟨a, -, rfl⟩
  · exact .inr he
  · exact .inl ⟨_, rfl, rfl⟩

/-- All that CALL can do. -/
theorem exec_call_cases {nnn : Addr12} {s t : State} (h : exec (.call nnn) s = .next t) :
    FaultEntry s t ∨ ∃ room : s.sp.val < 16,
      t = { s with stack := s.stack.set s.sp.val (s.pc + 2), sp := ⟨s.sp.val + 1, Nat.succ_lt_succ room⟩, pc := nnn.zext } := by
  by_cases room : s.sp.val < 16
  · rw [exec_call_of_lt nnn room] at h
    cases h; exact .inr ⟨room, rfl⟩
  · rw [exec_call_of_full nnn (by omega)] at h
    cases h; exact .inl ⟨_, rfl, rfl⟩

/-- All that RET can do: its pc is an entry of the stack. -/
theorem exec_ret_cases {s t : State} (h : exec .ret s = .next t) :
    FaultEntry s t ∨ ∃ (sp : Fin 17) (j : Nat) (hj : j < 16), t = { s with sp := sp, pc := s.stack[j] } := by
  by_cases nonempty : 0 < s.sp.val
  · rw [exec_ret_of_pos nonempty] at h
    cases h; exact .inr ⟨_, _, _, rfl⟩
  · rw [exec_ret_of_empty (by omega)] at h
    cases h; exact .inl ⟨_, rfl, rfl⟩

/-- All that an instruction can do to the state: enter a fault, or write the fields of its row. -/
theorem exec_faults_or_writes {i : Instr} {s t : State} (h : exec i s = .next t) :
    FaultEntry s t ∨ WritesOnly (writes i) s t := by
  cases i with
  | sys => exact .inl (faultEntry_of_raise rfl h)
  | cls => cases h; exact .inr ⟨s.clearDisplay_changesOnly, fun _ => rfl⟩
  | call =>
    rcases exec_call_cases h with fault | ⟨_, rfl⟩
    · exact .inl fault
    · exact .inr ⟨s.push_changesOnly _ _ _, fun _ => rfl⟩
  | ret =>
    rcases exec_ret_cases h with fault | ⟨_, _, _, rfl⟩
    · exact .inl fault
    · exact .inr ⟨s.pop_changesOnly _ _, fun _ => rfl⟩
  | jp | jpV0 => cases h; exact .inr ⟨s.setPc_changesOnly _, fun _ => rfl⟩
  | seImm | sneImm | seReg | sneReg | skp | sknp => cases h; exact .inr ⟨s.skipIf_changesOnly _, fun _ => rfl⟩
  | ldImm | addImm | ldReg | ldVxDT => cases h; exact .inr ⟨s.setReg_advance_changesOnly _ _, fun _ => rfl⟩
  | orReg | andReg | xorReg | addReg | subReg | shrReg | subnReg | shlReg =>
    cases h; exact .inr ⟨s.writeResultThenFlag_changesOnly _ _ _, fun _ => rfl⟩
  | ldI | addI | ldF => cases h; exact .inr ⟨s.setI_advance_changesOnly _, fun _ => rfl⟩
  | rnd => cases h; exact .inr ⟨s.takeDraw_advance_changesOnly _ _ _, fun _ => rfl⟩
  | ldVxK => cases h; exact .inr ⟨s.setMode_changesOnly _, fun _ => rfl⟩
  | ldDTVx => cases h; exact .inr ⟨s.setDt_advance_changesOnly _, fun _ => rfl⟩
  | ldSTVx => cases h; exact .inr ⟨s.setSt_advance_changesOnly _, fun _ => rfl⟩
  | drw => exact guardRange_faults_or_writes h ⟨s.draw_advance_changesOnly _ _ _, fun _ => rfl⟩
  | ldB => exact guardRange_faults_or_writes h ⟨s.store_advance_changesOnly _, fun hm => absurd (.head _) hm⟩
  | ldMemVx =>
    exact guardRange_faults_or_writes h ⟨s.storeBlock_advance_changesOnly _ _, fun hm => absurd (.head _) hm⟩
  | ldVxMem => exact guardRange_faults_or_writes h ⟨s.loadBlock_advance_changesOnly _ _, fun _ => rfl⟩

/-- Settles O47: CALL, RET and the range checks answer a next state on both sides of their check. -/
theorem everyInstructionAnswersANextState : Obligations.EveryInstructionAnswersANextState := by
  intro i s
  have guarded : ∀ (bad : Option Nat) (e : State), ∃ t, guardRange s bad e = .next t := by
    intro bad e
    cases bad <;> exact ⟨_, rfl⟩
  cases i with
  | call nnn =>
    by_cases room : s.sp.val < 16
    · exact ⟨_, exec_call_of_lt nnn room⟩
    · exact ⟨_, exec_call_of_full nnn (by omega)⟩
  | ret =>
    by_cases nonempty : 0 < s.sp.val
    · exact ⟨_, exec_ret_of_pos nonempty⟩
    · exact ⟨_, exec_ret_of_empty (by omega)⟩
  | drw | ldB | ldMemVx | ldVxMem => exact guarded _ _
  | _ => exact ⟨_, rfl⟩

/-! ## The table read field by field -/

theorem i_mem_writes {i : Instr} (h : Field.i ∈ writes i) :
    (∃ nnn, i = .ldI nnn) ∨ ∃ x, i = .addI x ∨ i = .ldF x ∨ i = .ldMemVx x ∨ i = .ldVxMem x := by
  cases i <;> simp_all [writes]

theorem sp_mem_writes {i : Instr} (h : Field.sp ∈ writes i) : i = .ret ∨ ∃ nnn, i = .call nnn := by
  cases i <;> simp_all [writes]

theorem stack_mem_writes {i : Instr} (h : Field.stack ∈ writes i) : ∃ nnn, i = .call nnn := by
  cases i <;> simp_all [writes]

theorem dt_mem_writes {i : Instr} (h : Field.dt ∈ writes i) : ∃ x, i = .ldDTVx x := by
  cases i <;> simp_all [writes]

theorem st_mem_writes {i : Instr} (h : Field.st ∈ writes i) : ∃ x, i = .ldSTVx x := by
  cases i <;> simp_all [writes]

theorem fb_mem_writes {i : Instr} (h : Field.fb ∈ writes i) : i = .cls ∨ ∃ x y n, i = .drw x y n := by
  cases i <;> simp_all [writes]

theorem mem_mem_writes {i : Instr} (h : Field.mem ∈ writes i) : ∃ x, i = .ldB x ∨ i = .ldMemVx x := by
  cases i <;> simp_all [writes]

theorem draws_mem_writes {i : Instr} (h : Field.draws ∈ writes i) : ∃ x nn, i = .rnd x nn := by
  cases i <;> simp_all [writes]

theorem mode_mem_writes {i : Instr} (h : Field.mode ∈ writes i) : ∃ x, i = .ldVxK x := by
  cases i <;> simp_all [writes]

theorem host_fields_not_mem_writes (i : Instr) :
    Field.key ∉ writes i ∧ Field.loadOpen ∉ writes i ∧ Field.schedule ∉ writes i := by
  cases i <;> simp [writes]

/-- Keys, LOAD_OPEN and the events to come are the host's: no instruction writes them. -/
theorem exec_keeps_host_fields {i : Instr} {s t : State} (h : exec i s = .next t) :
    t.key = s.key ∧ t.loadOpen = s.loadOpen ∧ t.schedule = s.schedule := by
  obtain ⟨hkey, hlo, hsched⟩ := host_fields_not_mem_writes i
  rcases exec_faults_or_writes h with ⟨f, -, rfl⟩ | ⟨frame, -⟩
  · exact ⟨rfl, rfl, rfl⟩
  · exact ⟨frame.key hkey, frame.loadOpen hlo, frame.schedule hsched⟩

/-- MODE after an instruction: kept, entered the wait of an FX0A at the same pc and memory, or halted. -/
theorem exec_mode_cases {i : Instr} {s t : State} (h : exec i s = .next t) :
    FaultEntry s t ∨ t.mode = s.mode ∨ ∃ x, i = .ldVxK x ∧ t = { s with mode := .waitingForKey x } := by
  rcases exec_faults_or_writes h with fault | ⟨frame, -⟩
  · exact .inl fault
  · by_cases hm : Field.mode ∈ writes i
    · obtain ⟨x, rfl⟩ := mode_mem_writes hm
      cases h
      exact .inr (.inr ⟨x, rfl, rfl⟩)
    · exact .inr (.inl (frame.mode hm))

/-- Settles O52: a field that differs is in the row of the instruction, and the table says whose row that is. A fault entry
differs in MODE alone. -/
theorem stateIsWrittenOnlyByItsInstructions : Obligations.StateIsWrittenOnlyByItsInstructions := by
  intro i s t h
  have written : ∀ {f : Field} {same : Prop}, (f ∉ writes i → same) → ¬ same → f ∈ writes i :=
    fun keeps differs => by_contra fun hf => differs (keeps hf)
  have mode : t.mode = s.mode ∨ (∃ x, i = .ldVxK x ∧ t.mode = .waitingForKey x) ∨ ∃ f, t.mode = .halted f := by
    rcases exec_mode_cases h with ⟨f, -, rfl⟩ | same | ⟨x, hi, rfl⟩
    · exact .inr (.inr ⟨f, rfl⟩)
    · exact .inl same
    · exact .inr (.inl ⟨x, hi, rfl⟩)
  obtain ⟨key, loadOpen, schedule⟩ := exec_keeps_host_fields h
  rcases exec_faults_or_writes h with ⟨f, -, rfl⟩ | ⟨frame, sameMemory⟩
  · simp
  · exact ⟨fun d => i_mem_writes (written frame.i d), fun d => sp_mem_writes (written frame.sp d),
      fun d => stack_mem_writes (written frame.stack d), fun d => dt_mem_writes (written frame.dt d),
      fun d => st_mem_writes (written frame.st d), fun d => fb_mem_writes (written frame.fb d),
      fun d => mem_mem_writes (written sameMemory d), fun d => draws_mem_writes (written frame.draws d),
      key, loadOpen, schedule, mode⟩

/-! ## What an instruction cannot read -/

/-- An update that goes through the fault entry and through the effect goes through the range check. -/
theorem guardRange_mapNext {g : State → State} {s s' e e' : State} {bad : Option Nat} (pc : s'.pc = s.pc)
    (fault : ∀ f, raise f s' = mapNext g (raise f s)) (effect : e' = g e) :
    guardRange s' bad e' = mapNext g (guardRange s bad e) := by
  cases bad with
  | none => exact congrArg _ effect
  | some a =>
    unfold guardRange
    rw [pc]
    exact fault _

/-- Settles O53: the update of ST and LOAD_OPEN passes through every instruction unread; the checks of CALL, RET and the
memory accesses come out the same on both sides. -/
theorem noInstructionReadsSoundTimerOrLoadOpen : Obligations.NoInstructionReadsSoundTimerOrLoadOpen := by
  intro i s st lo
  refine ⟨fun notSt => ?_, fun x hi => by subst hi; rfl⟩
  cases i with
  | ldSTVx x => exact absurd rfl (notSt x)
  | call nnn =>
    simp only [exec, execCall]
    split <;> rfl
  | ret =>
    simp only [exec, execRet]
    split <;> rfl
  | drw | ldB | ldMemVx | ldVxMem => exact guardRange_mapNext rfl (fun _ => rfl) rfl
  | _ => rfl

/-- Only CALL and RET read the stack. -/
theorem exec_setStack {i : Instr} (hi : Field.sp ∉ writes i) (s : State) (stack : Vector Word 16) :
    exec i { s with stack := stack } = mapNext (fun t => { t with stack := stack }) (exec i s) := by
  cases i with
  | call | ret => simp [writes] at hi
  | drw | ldB | ldMemVx | ldVxMem => exact guardRange_mapNext rfl (fun _ => rfl) rfl
  | _ => rfl

/-- `t'` is `t` but for stack entries at or above SP. -/
def SameBelowSp (t t' : State) : Prop :=
  t' = { t with stack := t'.stack } ∧ ∀ j (h : j < 16), j < t.sp.val → t'.stack[j] = t.stack[j]

section
variable {s : State} {stack : Vector Word 16}

/-- RET reads the entry below SP, where both stacks agree. -/
theorem exec_ret_sameBelowSp (agree : ∀ j (h : j < 16), j < s.sp.val → stack[j] = s.stack[j]) :
    ∃ t t', exec .ret s = .next t ∧ exec .ret { s with stack := stack } = .next t' ∧ SameBelowSp t t' := by
  by_cases nonempty : 0 < s.sp.val
  · refine ⟨_, _, exec_ret_of_pos nonempty, exec_ret_of_pos (s := { s with stack := stack }) nonempty, ?_, ?_⟩
    · have top := agree (s.sp.val - 1) (by omega) (by omega)
      simp only [top]
    · exact fun j h below => agree j h (lt_of_lt_of_le below (Nat.sub_le _ _))
  · have empty : s.sp.val = 0 := by omega
    exact ⟨_, _, exec_ret_of_empty empty, exec_ret_of_empty (s := { s with stack := stack }) empty, rfl, agree⟩

/-- CALL overwrites the entry at SP, and the entries below it agree already. -/
theorem exec_call_sameBelowSp (nnn : Addr12) (agree : ∀ j (h : j < 16), j < s.sp.val → stack[j] = s.stack[j]) :
    ∃ t t', exec (.call nnn) s = .next t ∧ exec (.call nnn) { s with stack := stack } = .next t' ∧ SameBelowSp t t' := by
  by_cases room : s.sp.val < 16
  · refine ⟨_, _, exec_call_of_lt nnn room, exec_call_of_lt (s := { s with stack := stack }) nnn room, rfl, ?_⟩
    intro j h below
    have below : j < s.sp.val + 1 := below
    simp only [Vector.getElem_set]
    split
    · rfl
    · exact agree j h (by omega)
  · have full : s.sp.val = 16 := by omega
    exact ⟨_, _, exec_call_of_full nnn full, exec_call_of_full (s := { s with stack := stack }) nnn full, rfl, agree⟩

end

/-- An instruction that does not write SP does not write the stack either. -/
theorem exec_keeps_stack {i : Instr} {s t : State} (hi : Field.sp ∉ writes i) (h : exec i s = .next t) :
    t.sp = s.sp ∧ t.stack = s.stack := by
  have hstack : Field.stack ∉ writes i := by
    intro hs
    obtain ⟨nnn, rfl⟩ := stack_mem_writes hs
    simp [writes] at hi
  rcases exec_faults_or_writes h with ⟨f, -, rfl⟩ | ⟨frame, -⟩
  · exact ⟨rfl, rfl⟩
  · exact ⟨frame.sp hi, frame.stack hstack⟩

/-- Settles O54: RET and CALL read or write the stack at entries where this cannot show, and every other instruction carries
it along unread. -/
theorem staleStackEntriesAreNotObservable : Obligations.StaleStackEntriesAreNotObservable := by
  intro i s stack agree
  by_cases hi : Field.sp ∈ writes i
  · rcases sp_mem_writes hi with rfl | ⟨nnn, rfl⟩
    · exact exec_ret_sameBelowSp agree
    · exact exec_call_sameBelowSp nnn agree
  · obtain ⟨t, h⟩ := everyInstructionAnswersANextState i s
    obtain ⟨sameSp, sameStack⟩ := exec_keeps_stack hi h
    refine ⟨t, { t with stack := stack }, h, by rw [exec_setStack hi, h, mapNext_next], rfl, ?_⟩
    rw [sameSp, sameStack]
    exact agree

end Sys2Proof.Machine
end

section
/-! PROOFS. What a cycle and an event can do (30_encoding.md R100, R101; 10_state.md section 11), and the invariant: every step
keeps it, by the event of the step and, in a cycle, by MODE. -/

namespace Sys2Proof.Machine

/-! ## What a cycle can do -/

/-- The next state of a poll (R224). -/
theorem pollKeys_cases {x : Reg} {s t : State} (h : pollKeys x s = .next t) :
    t = s ∨ ∃ k, t = State.advance { s.setReg x (BitVec.ofNat 8 k) with mode := .running } := by
  unfold pollKeys at h
  split at h <;> cases h
  · exact .inl rfl
  · exact .inr ⟨_, rfl⟩

/-- All that a Running cycle can do (R101). -/
theorem runOne_next {s t : State} (h : runOne s = .next t) :
    FaultEntry s t ∨ (s.pc.toNat + 1 < 4096 ∧ ∃ i, decode (fetchWord s.mem s.pc.toNat) = .ok i ∧ exec i s = .next t) := by
  rcases runOne_cases s with ⟨-, hr⟩ | ⟨-, -, hr⟩ | ⟨inside, i, hd, hr⟩
  · rw [hr] at h; cases h
    exact .inl ⟨_, rfl, rfl⟩
  · rw [hr] at h; cases h
    exact .inl ⟨_, rfl, rfl⟩
  · exact .inr ⟨inside, i, hd, hr.symm.trans h⟩

/-- All that a cycle can do, by MODE (R100). -/
theorem dispatchByMode_next {s t : State} (h : dispatchByMode s = .next t) :
    (s.mode = .running ∧ FaultEntry s t) ∨
    (s.mode = .running ∧ s.pc.toNat + 1 < 4096 ∧ ∃ i, decode (fetchWord s.mem s.pc.toNat) = .ok i ∧ exec i s = .next t) ∨
    (∃ x, s.mode = .waitingForKey x ∧
      (t = s ∨ ∃ k, t = State.advance { s.setReg x (BitVec.ofNat 8 k) with mode := .running })) := by
  unfold dispatchByMode at h
  split at h
  · rename_i hm
    rcases runOne_next h with fault | ran
    · exact .inl ⟨hm, fault⟩
    · exact .inr (.inl ⟨hm, ran⟩)
  · rename_i x hm
    exact .inr (.inr ⟨x, hm, pollKeys_cases h⟩)
  · cases h

/-- A cycle in Halted is refused (R48). -/
theorem dispatchByMode_halted {s : State} {f : FaultRecord} (h : s.mode = .halted f) :
    dispatchByMode s = .refused .cycleWhileHalted := by
  unfold dispatchByMode
  rw [h]

/-! ## What the other events can do -/

theorem setKeyState_of_lt {k : Nat} (hk : k < 16) (b : Bool) (s : State) :
    setKeyState k b s = .next { s with key := s.key.set k b hk } := dif_pos hk

theorem setKeyState_of_ge {k : Nat} (hk : 16 ≤ k) (b : Bool) (s : State) :
    setKeyState k b s = .refused .noSuchKey := dif_neg (Nat.not_lt.mpr hk)

theorem setKeyState_next {k : Nat} {b : Bool} {s t : State} (h : setKeyState k b s = .next t) :
    ∃ hk : k < 16, t = { s with key := s.key.set k b hk } := by
  by_cases hk : k < 16
  · rw [setKeyState_of_lt hk] at h; cases h
    exact ⟨hk, rfl⟩
  · rw [setKeyState_of_ge (by omega)] at h; cases h

theorem loadProgram_of_fits {bytes : List Byte} {s : State} (lo : s.loadOpen = true) (fits : bytes.length ≤ 3584) :
    loadProgram bytes s =
      .next { s with loadOpen := false, mem := Memory.writeBlock s.mem Config.programBase bytes } := by
  rw [loadProgram, if_pos lo, if_neg (Nat.not_lt.mpr fits)]

theorem loadProgram_of_tooLarge {bytes : List Byte} {s : State} (lo : s.loadOpen = true) (large : 3584 < bytes.length) :
    loadProgram bytes s = .next { s with loadOpen := false, mode := .halted (.programTooLarge bytes.length) } := by
  rw [loadProgram, if_pos lo, if_pos large]
  rfl

theorem loadProgram_of_closed {bytes : List Byte} {s : State} (lo : s.loadOpen = false) :
    loadProgram bytes s = .refused .loadNotOpen := by
  rw [loadProgram, lo]
  rfl

theorem loadProgram_next {bytes : List Byte} {s t : State} (h : loadProgram bytes s = .next t) :
    s.loadOpen = true ∧
    ((3584 < bytes.length ∧ t = { s with loadOpen := false, mode := .halted (.programTooLarge bytes.length) }) ∨
     (bytes.length ≤ 3584 ∧
      t = { s with loadOpen := false, mem := Memory.writeBlock s.mem Config.programBase bytes })) := by
  cases lo : s.loadOpen with
  | false => rw [loadProgram_of_closed lo] at h; cases h
  | true =>
    refine ⟨rfl, ?_⟩
    by_cases large : 3584 < bytes.length
    · rw [loadProgram_of_tooLarge lo large] at h; cases h
      exact .inl ⟨large, rfl⟩
    · rw [loadProgram_of_fits lo (by omega)] at h; cases h
      exact .inr ⟨by omega, rfl⟩

theorem toNat_decTimer (b : Byte) : (decTimer b).toNat = b.toNat - 1 := by
  have := b.isLt
  rw [decTimer, BitVec.toNat_ofNat]
  omega

/-! ## Ways to meet the invariant -/

/-- The parts of the invariant that are about memory, pc, stack and MODE carry over to a state with the same. -/
theorem State.Inv.of_same_core {s t : State} (h : s.Inv) (hmem : t.mem = s.mem) (hpc : t.pc = s.pc)
    (hstack : t.stack = s.stack) (hmode : t.mode = s.mode)
    (fresh : t.loadOpen = true → t = { State.reset with key := t.key, draws := t.draws, schedule := t.schedule }) :
    t.Inv where
  memCanonical := by rw [hmem]; exact h.memCanonical
  pcBounded := by rw [hpc]; exact h.pcBounded
  stackBounded := by rw [hstack]; exact h.stackBounded
  waitsAtItsInstruction := by rw [hmode, hpc, hmem]; exact h.waitsAtItsInstruction
  haltsAtItsFault := by rw [hmode, hpc]; exact h.haltsAtItsFault
  freshWhileLoadOpen := fresh

/-- Taking an event off the list, as every step does. -/
theorem State.Inv.dequeue {s : State} (h : s.Inv) (rest : List Event) : ({ s with schedule := rest } : State).Inv :=
  h.of_same_core rfl rfl rfl rfl fun lo => congrArg (fun u : State => { u with schedule := rest }) (h.freshWhileLoadOpen lo)

theorem State.Inv.inCycle {s : State} (h : s.Inv) : s.inCycle.Inv :=
  h.of_same_core rfl rfl rfl rfl (nomatch ·)

/-- Halting at the pc of the record. -/
theorem State.Inv.halt {s : State} {f : FaultRecord} (h : s.Inv) (closed : s.loadOpen = false)
    (hf : ∀ p, f.pc? = some p → s.pc = p) : ({ s with mode := .halted f } : State).Inv where
  memCanonical := h.memCanonical
  pcBounded := h.pcBounded
  stackBounded := h.stackBounded
  waitsAtItsInstruction := fun _ hm => nomatch hm
  haltsAtItsFault := fun g p hm hg => by cases hm; exact hf p hg
  freshWhileLoadOpen := fun lo => by cases closed.symm.trans lo

theorem State.Inv.faultEntry {s t : State} (h : s.Inv) (closed : s.loadOpen = false) (fault : FaultEntry s t) : t.Inv := by
  obtain ⟨f, hf, rfl⟩ := fault
  exact h.halt closed fun p hp => Option.some.inj (hf.symm.trans hp)

/-- A Running state with the load closed meets the invariant by its memory, pc and stack alone. -/
theorem State.Inv.of_running {t : State} (hm : t.mode = .running) (closed : t.loadOpen = false)
    (hmem : Memory.wf t.mem = true) (hpc : t.pc.toNat ≤ 0x10FE) (hstack : ∀ j (h : j < 16), (t.stack[j]).toNat ≤ 0x1000) :
    t.Inv where
  memCanonical := hmem
  pcBounded := hpc
  stackBounded := hstack
  waitsAtItsInstruction := fun _ h => by cases hm.symm.trans h
  haltsAtItsFault := fun _ _ h => by cases hm.symm.trans h
  freshWhileLoadOpen := fun lo => by cases closed.symm.trans lo

/-- While a load is open the core is Running, with both timers 0. -/
theorem State.Inv.fresh {s : State} (h : s.Inv) (lo : s.loadOpen = true) :
    s.mode = .running ∧ s.pc = 0x200#16 ∧ s.dt = 0 ∧ s.st = 0 := by
  have fresh := h.freshWhileLoadOpen lo
  exact ⟨congrArg State.mode fresh, congrArg State.pc fresh, congrArg State.dt fresh, congrArg State.st fresh⟩

/-! ## An instruction keeps the invariant -/

theorem exec_keeps_memCanonical {i : Instr} {s t : State} (hmem : Memory.wf s.mem = true) (h : exec i s = .next t) :
    Memory.wf t.mem = true := by
  have guarded : ∀ {bs : List Byte} {e : State}, e.mem = Memory.writeBlock s.mem (s.dataAddr 0) bs →
      guardRange s (s.dataOutOfRange bs.length) e = .next t → Memory.wf t.mem = true := by
    intro bs e he h
    rcases guardRange_cases h with ⟨inRange, rfl⟩ | ⟨a, -, rfl⟩
    · rw [he]
      rcases inRange_of_dataOutOfRange inRange with empty | inside
      · rw [List.eq_nil_of_length_eq_zero empty]
        exact hmem
      · exact Memory.wf_writeBlock hmem _ _ inside
    · exact hmem
  by_cases hi : Field.mem ∈ writes i
  · obtain ⟨x, rfl | rfl⟩ := mem_mem_writes hi
    · exact guarded (bs := bcdDigits (s.reg x)) rfl h
    · exact guarded (bs := s.regsUpTo x) rfl (by rw [regsUpTo_length]; exact h)
  · rcases exec_faults_or_writes h with ⟨f, -, rfl⟩ | ⟨-, sameMemory⟩
    · exact hmem
    · rw [sameMemory hi]; exact hmem

theorem exec_keeps_stackBounded {i : Instr} {s t : State} (hpc : s.pc.toNat + 1 < 4096)
    (hstack : ∀ j (h : j < 16), (s.stack[j]).toNat ≤ 0x1000) (h : exec i s = .next t) :
    ∀ j (h : j < 16), (t.stack[j]).toNat ≤ 0x1000 := by
  by_cases hi : Field.stack ∈ writes i
  · obtain ⟨nnn, rfl⟩ := stack_mem_writes hi
    rcases exec_call_cases h with ⟨f, -, rfl⟩ | ⟨room, rfl⟩
    · exact hstack
    · intro j hj
      simp only [Vector.getElem_set]
      split
      · bv_omega
      · exact hstack j hj
  · rcases exec_faults_or_writes h with ⟨f, -, rfl⟩ | ⟨frame, -⟩
    · exact hstack
    · rw [frame.stack hi]; exact hstack

/-- The pc an instruction leaves: its own, the next or the one after, a target in its word, NNN + V0, or a stack entry. -/
theorem exec_pc_cases {i : Instr} {s t : State} (h : exec i s = .next t) :
    t.pc = s.pc ∨ t.pc = s.pc + 2 ∨ t.pc = s.pc + 4 ∨ (∃ nnn : Addr12, t.pc = nnn.zext) ∨
    (∃ (nnn : Addr12) (b : Byte), t.pc = nnn.zext + b.zext) ∨ ∃ (j : Nat) (hj : j < 16), t.pc = s.stack[j] := by
  have guarded : ∀ {bad : Option Nat} {e : State}, e.pc = s.pc + 2 → guardRange s bad e = .next t →
      t.pc = s.pc ∨ t.pc = s.pc + 2 := by
    intro bad e he h
    rcases guardRange_cases h with ⟨-, rfl⟩ | ⟨a, -, rfl⟩
    · exact .inr he
    · exact .inl rfl
  cases i with
  | sys | ldVxK => cases h; exact .inl rfl
  | call =>
    rcases exec_call_cases h with ⟨f, -, rfl⟩ | ⟨_, rfl⟩
    · exact .inl rfl
    · exact .inr (.inr (.inr (.inl ⟨_, rfl⟩)))
  | ret =>
    rcases exec_ret_cases h with ⟨f, -, rfl⟩ | ⟨_, j, hj, rfl⟩
    · exact .inl rfl
    · exact .inr (.inr (.inr (.inr (.inr ⟨j, hj, rfl⟩))))
  | jp => cases h; exact .inr (.inr (.inr (.inl ⟨_, rfl⟩)))
  | jpV0 => cases h; exact .inr (.inr (.inr (.inr (.inl ⟨_, _, rfl⟩))))
  | seImm | sneImm | seReg | sneReg | skp | sknp =>
    cases h
    rw [State.skipIf_pc]
    split
    · exact .inr (.inr (.inl rfl))
    · exact .inr (.inl rfl)
  | drw | ldB | ldMemVx | ldVxMem => exact (guarded rfl h).imp_right .inl
  | _ => cases h; exact .inr (.inl rfl)

@[simp] theorem Byte.toNat_zext (b : Byte) : (Byte.zext b).toNat = b.toNat :=
  BitVec.toNat_setWidth_of_le (by decide)

/-- The exact target of BNNN: no wrap at 16 bits (R127). -/
theorem toNat_zext_add_zext (nnn : Addr12) (b : Byte) : (nnn.zext + Byte.zext b).toNat = nnn.toNat + b.toNat := by
  have := nnn.isLt
  have := b.isLt
  rw [BitVec.toNat_add, Addr12.toNat_zext, Byte.toNat_zext]
  omega

/-- R25: no instruction writes a pc above 0x10FE, which is the largest target of BNNN. -/
theorem exec_keeps_pcBounded {i : Instr} {s t : State} (hpc : s.pc.toNat + 1 < 4096)
    (hstack : ∀ j (h : j < 16), (s.stack[j]).toNat ≤ 0x1000) (h : exec i s = .next t) : t.pc.toNat ≤ 0x10FE := by
  rcases exec_pc_cases h with e | e | e | ⟨nnn, e⟩ | ⟨nnn, b, e⟩ | ⟨j, hj, e⟩
  · rw [e]; omega
  · rw [e]; bv_omega
  · rw [e]; bv_omega
  · have := nnn.isLt
    rw [e, Addr12.toNat_zext]; omega
  · have := nnn.isLt
    have := b.isLt
    rw [e, toNat_zext_add_zext]; omega
  · have := hstack j hj
    rw [e]; omega

/-- The instruction of a Running cycle keeps the invariant. -/
theorem State.Inv.exec {i : Instr} {s t : State} (inv : s.Inv) (running : s.mode = .running) (closed : s.loadOpen = false)
    (inside : s.pc.toNat + 1 < 4096) (fetched : decode (fetchWord s.mem s.pc.toNat) = .ok i) (h : Machine.exec i s = .next t) :
    t.Inv := by
  rcases exec_mode_cases h with fault | same | ⟨x, rfl, rfl⟩
  · exact inv.faultEntry closed fault
  · obtain ⟨-, sameLoad, -⟩ := exec_keeps_host_fields h
    exact .of_running (same.trans running) (sameLoad.trans closed) (exec_keeps_memCanonical inv.memCanonical h)
      (exec_keeps_pcBounded inside inv.stackBounded h) (exec_keeps_stackBounded inside inv.stackBounded h)
  · exact {
      memCanonical := inv.memCanonical
      pcBounded := inv.pcBounded
      stackBounded := inv.stackBounded
      waitsAtItsInstruction := fun y hy => by
        cases hy
        exact ⟨inside, (encodeOfDecodeIsTheWord _ _ fetched).1.symm⟩
      haltsAtItsFault := fun _ _ hm => nomatch hm
      freshWhileLoadOpen := fun lo => by cases closed.symm.trans lo }

/-! ## Every event keeps the invariant -/

/-- A cycle keeps the invariant: a fault and an instruction in Running, a poll in the wait. -/
theorem State.Inv.dispatch {s t : State} (inv : s.Inv) (closed : s.loadOpen = false) (h : dispatchByMode s = .next t) :
    t.Inv := by
  rcases dispatchByMode_next h with ⟨-, fault⟩ | ⟨running, inside, i, fetched, he⟩ | ⟨x, waiting, rfl | ⟨k, rfl⟩⟩
  · exact inv.faultEntry closed fault
  · exact inv.exec running closed inside fetched he
  · exact inv
  · have inside := (inv.waitsAtItsInstruction x waiting).1
    refine .of_running rfl closed inv.memCanonical ?_ inv.stackBounded
    show (s.pc + 2).toNat ≤ 0x10FE
    bv_omega

/-- Settles O48: reset lists no memory cell, stands at 0x200 in Running, and is as reset left it. -/
theorem invariantHoldsAtReset : Obligations.InvariantHoldsAtReset where
  memCanonical := reset_mem_wf
  pcBounded := by decide
  stackBounded := by decide
  waitsAtItsInstruction := fun _ h => nomatch h
  haltsAtItsFault := fun _ _ h => nomatch h
  freshWhileLoadOpen := fun _ => rfl

theorem inv_hostReset (s : State) : (hostReset s).Inv :=
  invariantHoldsAtReset.of_same_core rfl rfl rfl rfl fun _ => rfl

theorem State.Inv.loadProgram {bytes : List Byte} {s t : State} (inv : s.Inv)
    (h : Machine.loadProgram bytes s = .next t) : t.Inv := by
  obtain ⟨lo, ⟨-, rfl⟩ | ⟨fits, rfl⟩⟩ := loadProgram_next h
  · have closed : ({ s with loadOpen := false } : State).Inv := inv.of_same_core rfl rfl rfl rfl (nomatch ·)
    exact closed.halt rfl fun _ hp => nomatch hp
  · obtain ⟨running, -, -, -⟩ := inv.fresh lo
    exact .of_running running rfl (Memory.wf_writeBlock inv.memCanonical _ _ (by show 0x200 + _ ≤ 4096; omega))
      inv.pcBounded inv.stackBounded

theorem State.Inv.timerTick {s t : State} (inv : s.Inv) (h : Machine.timerTick s = .next t) : t.Inv := by
  cases h
  refine inv.of_same_core rfl rfl rfl rfl fun lo => ?_
  obtain ⟨-, -, dt, st⟩ := inv.fresh lo
  rw [dt, st]
  exact congrArg (fun u : State => { u with dt := decTimer 0, st := decTimer 0 }) (inv.freshWhileLoadOpen lo)

theorem State.Inv.setKeyState {k : Nat} {b : Bool} {s t : State} (inv : s.Inv)
    (h : Machine.setKeyState k b s = .next t) : t.Inv := by
  obtain ⟨hk, rfl⟩ := setKeyState_next h
  exact inv.of_same_core rfl rfl rfl rfl fun lo =>
    congrArg (fun u : State => { u with key := s.key.set k b hk }) (inv.freshWhileLoadOpen lo)

/-- Settles O49, by the event of the step. -/
theorem everyStepKeepsTheInvariant : Obligations.EveryStepKeepsTheInvariant := by
  intro s t inv h
  rcases step_cases s with ⟨-, hs⟩ | ⟨e, rest, -, notCycle, hs⟩ <;> rw [hs] at h
  · exact inv.inCycle.dispatch rfl h
  · have inv := inv.dequeue rest
    cases e with
    | reset => cases h; exact inv_hostReset _
    | loadProgram bytes => exact inv.loadProgram h
    | cycle => exact absurd rfl notCycle
    | timerTick => exact inv.timerTick h
    | setKeyState k b => exact inv.setKeyState h
    | snapshot => cases h; exact inv

end Sys2Proof.Machine
end

section
/-! PROOFS. The cycle (30_encoding.md section 6): what a step is when its event is a cycle, in each MODE, and the statements
about the fetch, unknown words, the poll, Halted and faults. -/

namespace Sys2Proof.Machine

/-! ## A cycle in Running -/

theorem step_running {s : State} (due : s.nextIsCycle) (running : s.mode = .running) : step s = runOne s.inCycle := by
  rw [step_of_nextIsCycle due, dispatchByMode, State.inCycle_mode, running]

theorem runOne_of_decodes {s : State} {i : Instr} (inside : s.pc.toNat + 1 < 4096)
    (fetched : decode (fetchWord s.mem s.pc.toNat) = .ok i) : runOne s = exec i s := by
  rcases runOne_cases s with ⟨outside, -⟩ | ⟨-, ⟨e, rejected⟩, -⟩ | ⟨-, j, fetched', h⟩
  · omega
  · cases fetched.symm.trans rejected
  · cases fetched.symm.trans fetched'
    exact h

theorem runOne_of_rejected {s : State} {e : DecodeError} (inside : s.pc.toNat + 1 < 4096)
    (rejected : decode (fetchWord s.mem s.pc.toNat) = .error e) :
    runOne s = .next { s with mode := .halted (.unknownOpcode (fetchWord s.mem s.pc.toNat) s.pc) } := by
  rcases runOne_cases s with ⟨outside, -⟩ | ⟨-, -, h⟩ | ⟨-, j, fetched, -⟩
  · omega
  · exact h
  · cases rejected.symm.trans fetched

/-- The fetch fault records the lower address that is outside memory (R66, R259). -/
theorem runOne_of_outside {s : State} (outside : 4095 ≤ s.pc.toNat) :
    runOne s = .next { s with mode := .halted (.outOfBoundsAccess (BitVec.ofNat 16 (max s.pc.toNat 4096)) s.pc) } := by
  rcases runOne_cases s with ⟨-, h⟩ | ⟨inside, -⟩ | ⟨inside, -⟩
  · exact h
  · omega
  · omega

/-- SYS raises UnknownOpcode with its own word (R131). -/
theorem exec_sys (nnn : Addr12) (s : State) :
    exec (.sys nnn) s = .next { s with mode := .halted (.unknownOpcode (encode (.sys nnn)) s.pc) } := rfl

/-- Settles O5: in Running a cycle is `runOne`, and a word that decodes is executed. -/
theorem stepRunsTheDecodedInstruction : Obligations.StepRunsTheDecodedInstruction := by
  rintro s i ⟨due, running, inside, fetched⟩
  rw [step_running due running]
  exact runOne_of_decodes inside fetched

/-- Settles O6: the recorded address is the larger of pc and 4096. -/
theorem fetchOutsideMemoryHalts : Obligations.FetchOutsideMemoryHalts := by
  intro s due running
  rw [step_running due running]
  refine ⟨fun past => ?_, fun last => ?_⟩
  · rw [runOne_of_outside (by rw [State.inCycle_pc]; omega), State.inCycle_pc, max_eq_left past, BitVec.ofNat_toNat,
      BitVec.setWidth_eq]
    rfl
  · rw [runOne_of_outside (by rw [State.inCycle_pc]; omega), State.inCycle_pc, last]
    rfl

theorem State.haltInCycle_changesOnly (s : State) (f : FaultRecord) :
    ChangesOnly [.mode, .schedule, .loadOpen] s { s.inCycle with mode := .halted f } := by
  constructor <;> simp [State.reg]

/-- In Halted a cycle is refused (R48). -/
theorem step_halted {s : State} {f : FaultRecord} (due : s.nextIsCycle) (halted : s.mode = .halted f) :
    step s = .refused .cycleWhileHalted := by
  rw [step_of_nextIsCycle due]
  exact dispatchByMode_halted halted

/-- Settles O7: a rejected word and a SYS word take the same fault, the one by the cycle and the other by its instruction,
whose encoding is the word. -/
theorem unknownWordHaltsWithWordAndPc : Obligations.UnknownWordHaltsWithWordAndPc := by
  refine ⟨⟨_, rfl⟩, ?_⟩
  rintro s op due running inside rfl unknown
  have halts : step s = .next { s.inCycle with
      mode := .halted (.unknownOpcode (Memory.read s.mem s.pc.toNat ++ Memory.read s.mem (s.pc.toNat + 1)) s.pc) } := by
    rw [step_running due running]
    rcases unknown with ⟨e, rejected⟩ | ⟨nnn, isSys⟩
    · exact runOne_of_rejected inside rejected
    · rw [runOne_of_decodes (s := s.inCycle) inside isSys, exec_sys, (encodeOfDecodeIsTheWord _ _ isSys).1]
      rfl
  exact ⟨_, halts, rfl, rfl, rfl, s.haltInCycle_changesOnly _, fun due => step_halted due rfl⟩

/-! ## A cycle in the key wait -/

theorem step_waiting {s : State} {x : Reg} (due : s.nextIsCycle) (waiting : s.mode = .waitingForKey x) :
    step s = pollKeys x s.inCycle := by
  rw [step_of_nextIsCycle due, dispatchByMode, State.inCycle_mode, waiting]

theorem pollKeys_of_released {s : State} (x : Reg) (released : ∀ k (h : k < 16), s.key[k] = false) :
    pollKeys x s = .next s := by
  have none : firstPressed 0 s.key.toList = none := by
    rw [firstPressed_none]
    intro b hb
    obtain ⟨k, hk, rfl⟩ := List.mem_iff_getElem.mp hb
    simpa using released k (by simpa using hk)
  rw [pollKeys, none]

theorem pollKeys_of_smallest {s : State} (x : Reg) {k : Nat} (hk : k < 16) (pressed : s.key[k] = true)
    (smallest : ∀ j (hj : j < k), s.key[j] = false) :
    pollKeys x s = .next (State.advance { s.setReg x (BitVec.ofNat 8 k) with mode := .running }) := by
  have found : firstPressed 0 s.key.toList = some k :=
    firstPressed_some.mpr ⟨k, by simpa using hk, by simp, by simpa using pressed, fun j hj => by simpa using smallest j hj⟩
  rw [pollKeys, found]

theorem State.pollInCycle_changesOnly (s : State) (x : Reg) (b : Byte) :
    ChangesOnly [.v, .mode, .pc, .schedule, .loadOpen] s
      (State.advance { s.inCycle.setReg x b with mode := .running }) := by
  constructor <;> simp

/-- Settles O8, by what `firstPressed` finds: no key, or the one below which none is pressed. -/
theorem pollStoresTheSmallestPressedKey : Obligations.PollStoresTheSmallestPressedKey := by
  intro s x due waiting
  rw [step_waiting due waiting]
  refine ⟨fun released => pollKeys_of_released x released, fun k hk pressed smallest => ?_⟩
  rw [pollKeys_of_smallest (s := s.inCycle) x hk pressed smallest, completes_next]
  refine ⟨?stored, fun r hr => ?others, rfl, rfl, rfl, rfl, s.pollInCycle_changesOnly x _⟩
  case stored =>
    show ((s.inCycle.setReg x (BitVec.ofNat 8 k)).reg x).toNat = k
    rw [State.reg_setReg_same, BitVec.toNat_ofNat]
    omega
  case others => exact State.reg_setReg_ne s.inCycle _ hr

/-- A cycle that has nothing to clear and no event to take hands on the state itself. -/
theorem inCycle_of_idle {s : State} (noEvent : s.schedule = []) (closed : s.loadOpen = false) : s.inCycle = s := by
  cases s
  subst noEvent closed
  rfl

/-- Settles O9: the state of the wait is a fixed point of the step. -/
theorem keyWaitGoesOnWithoutAKey : Obligations.KeyWaitGoesOnWithoutAKey := by
  intro n s x waiting released noEvent closed
  have fixed : step s = .next s := by
    rw [step_waiting (.inl noEvent) waiting, pollKeys_of_released (s := s.inCycle) x released,
      inCycle_of_idle noEvent closed]
  induction n with
  | zero => rfl
  | succ n ih => exact (run_next fixed).trans ih

/-! ## What every cycle leaves -/

/-- Settles O10: an instruction leaves LOAD_OPEN as the cycle cleared it, and so do a fault and a poll. -/
theorem haltedTakesNoCycleAndCyclesCloseTheLoad : Obligations.HaltedTakesNoCycleAndCyclesCloseTheLoad := by
  intro s due
  refine ⟨fun f halted => step_halted due halted, fun t h => ?_⟩
  rw [step_of_nextIsCycle due] at h
  rcases dispatchByMode_next h with ⟨-, f, -, rfl⟩ | ⟨-, -, i, -, he⟩ | ⟨x, -, rfl | ⟨k, rfl⟩⟩
  · rfl
  · exact (exec_keeps_host_fields he).2.1
  · rfl
  · rfl

/-- Settles O51: a Running cycle that ends Halted went through a fault entry, since no effect of an instruction halts. -/
theorem faultingCycleIsPrecise : Obligations.FaultingCycleIsPrecise := by
  intro s t f due running h halted
  have precise : FaultEntry s.inCycle t → t = { s.inCycle with mode := .halted f } := by
    rintro ⟨g, -, rfl⟩
    cases halted
    rfl
  rw [step_running due running] at h
  rcases runOne_next h with fault | ⟨-, i, -, he⟩
  · exact precise fault
  · rcases exec_mode_cases he with fault | same | ⟨x, -, rfl⟩
    · exact precise fault
    · cases halted.symm.trans (same.trans running)
    · cases halted

end Sys2Proof.Machine
end

section
/-! PROOFS. The host's events (10_state.md section 11): what a step answers for each of them, the statements about them, and who
writes the delay timer, the keys and a halted core. -/

namespace Sys2Proof.Machine

/-! ## Frames of the events -/

theorem ChangesOnly.trans {fields : List Field} {s t u : State} (h : ChangesOnly fields s t) (h' : ChangesOnly fields t u) :
    ChangesOnly fields s u where
  v hf r := (h'.v hf r).trans (h.v hf r)
  i hf := (h'.i hf).trans (h.i hf)
  pc hf := (h'.pc hf).trans (h.pc hf)
  sp hf := (h'.sp hf).trans (h.sp hf)
  stack hf := (h'.stack hf).trans (h.stack hf)
  dt hf := (h'.dt hf).trans (h.dt hf)
  st hf := (h'.st hf).trans (h.st hf)
  fb hf := (h'.fb hf).trans (h.fb hf)
  key hf := (h'.key hf).trans (h.key hf)
  mem hf a := (h'.mem hf a).trans (h.mem hf a)
  mode hf := (h'.mode hf).trans (h.mode hf)
  loadOpen hf := (h'.loadOpen hf).trans (h.loadOpen hf)
  draws hf := (h'.draws hf).trans (h.draws hf)
  schedule hf := (h'.schedule hf).trans (h.schedule hf)

theorem State.tick_changesOnly (s : State) (dt st : Byte) (es : List Event) :
    ChangesOnly [.dt, .st, .schedule] s { s with dt := dt, st := st, schedule := es } := by
  constructor <;> simp [State.reg]

theorem State.setKey_changesOnly (s : State) (key : Vector Bool 16) (es : List Event) :
    ChangesOnly [.key, .schedule] s { s with key := key, schedule := es } := by
  constructor <;> simp [State.reg]

theorem State.load_changesOnly (s : State) (mem : Memory) (es : List Event) :
    ChangesOnly [.mem, .loadOpen, .schedule] s { s with mem := mem, loadOpen := false, schedule := es } := by
  constructor <;> simp [State.reg]

theorem State.haltedLoad_changesOnly (s : State) (m : Mode) (es : List Event) :
    ChangesOnly [.mode, .loadOpen, .schedule] s { s with mode := m, loadOpen := false, schedule := es } := by
  constructor <;> simp [State.reg]

/-- What the host may do to a halted core short of a reset (R258). -/
theorem State.hostInput_changesOnly (s : State) (dt st : Byte) (key : Vector Bool 16) (es : List Event) :
    ChangesOnly [.dt, .st, .key, .schedule] s { s with dt := dt, st := st, key := key, schedule := es } := by
  constructor <;> simp [State.reg]

/-! ## Timer ticks -/

theorem step_timerTick {s : State} {rest : List Event} (h : s.schedule = .timerTick :: rest) :
    step s = .next { s with dt := decTimer s.dt, st := decTimer s.st, schedule := rest } :=
  step_of_schedule h

/-- Settles O11, by induction on the number of ticks. -/
theorem ticksCountBothTimersDown : Obligations.TicksCountBothTimersDown := by
  intro n
  induction n with
  | zero => exact fun s rest h => ⟨s, rfl, rfl, rfl, h, .refl _ s⟩
  | succ n ih =>
    intro s rest h
    obtain ⟨t, run, dt, st, schedule, frame⟩ :=
      ih { s with dt := decTimer s.dt, st := decTimer s.st, schedule := List.replicate n .timerTick ++ rest } rest rfl
    simp only [toNat_decTimer] at dt st
    exact ⟨t, (run_next (step_timerTick h)).trans run, by omega, by omega, schedule,
      (s.tick_changesOnly _ _ _).trans frame⟩

/-! ## Keys -/

/-- Settles O12, by the two sides of the check on the key number. -/
theorem setKeyStateWritesOneKey : Obligations.SetKeyStateWritesOneKey := by
  intro s k b rest h
  rw [step_of_schedule h]
  refine ⟨fun hk => ?_, fun hk => setKeyState_of_ge hk b _⟩
  rw [runEvent, setKeyState_of_lt hk, completes_next]
  refine ⟨fun j hj => ?_, rfl, s.setKey_changesOnly _ _⟩
  rw [Vector.getElem_set]
  simp only [eq_comm (a := k)]

/-! ## Loading a program -/

/-- Settles O13: the load is a block write at 0x200, read back inside and outside the block. -/
theorem loadPlacesTheProgram : Obligations.LoadPlacesTheProgram := by
  intro s bytes rest h
  rw [step_of_schedule h]
  refine ⟨fun lo fits => ?_, fun closed => loadProgram_of_closed closed⟩
  rw [runEvent, loadProgram_of_fits (s := { s with schedule := rest }) lo fits, completes_next]
  exact ⟨fun k hk => Memory.read_writeBlock_inside _ _ _ hk, fun a ha => Memory.read_writeBlock_outside _ _ _ ha, rfl, rfl,
    s.load_changesOnly _ _⟩

/-- Settles O14: the invariant has pc at 0x200 while the load is open. -/
theorem programTooLargeHaltsTheLoad : Obligations.ProgramTooLargeHaltsTheLoad := by
  intro s bytes rest inv h lo large
  rw [step_of_schedule h, runEvent, loadProgram_of_tooLarge (s := { s with schedule := rest }) lo large, completes_next]
  obtain ⟨-, pc, -, -⟩ := inv.fresh lo
  exact ⟨rfl, pc, rfl, rfl, s.haltedLoad_changesOnly _ _⟩

/-! ## Reset -/

theorem resetByte_font (k : Nat) : resetByte (0x050 + k) = fontTable.getD k 0 := by
  have base : fontBase = 0x050 := rfl
  rw [resetByte, base, if_pos (Nat.le_add_right _ _), Nat.add_sub_cancel_left]

/-- Settles O15: `hostReset` is the reset state with the two fields of the model's own going on. -/
theorem resetLeavesTheResetState : Obligations.ResetLeavesTheResetState := by
  intro s rest h
  rw [step_of_schedule h, runEvent, completes_next]
  have registers : ∀ r, State.reset.reg r = 0 := fun r => by simp [State.reg, State.reset]
  have stack : ∀ j (h : j < 16), State.reset.stack[j] = 0 := fun j h => by simp [State.reset]
  have keys : ∀ k (h : k < 16), State.reset.key[k] = false := fun k h => by simp [State.reset]
  exact ⟨registers, rfl, rfl, rfl, stack, rfl, rfl, Display.cell_clear, keys, fun a ha => resetByte_outside_font ha,
    fun k _ => resetByte_font k, rfl, rfl, rfl, rfl⟩

/-! ## The snapshot -/

/-- Bit `y*64 + x` of rows written as one number is bit `x` of row `y`. -/
theorem testBit_rowsToNat {rows : List (BitVec 64)} {x y : Nat} (hx : x < 64) (hy : y < rows.length) :
    (rowsToNat rows).testBit (y * 64 + x) = rows[y].getLsbD x := by
  induction rows generalizing y with
  | nil => simp at hy
  | cons r rest ih =>
    rw [rowsToNat, Nat.add_comm, Nat.testBit_two_pow_mul_add _ r.isLt]
    cases y with
    | zero => simp [hx, BitVec.getLsbD]
    | succ y =>
      rw [if_neg (by omega), show (y + 1) * 64 + x - 64 = y * 64 + x by omega]
      exact ih (by simpa using hy)

/-- Settles O16: the snapshot is the rows as one number. -/
theorem snapshotIsRowMajorAndWritesNothing : Obligations.SnapshotIsRowMajorAndWritesNothing := by
  refine ⟨fun s x y hx hy => ?_, fun s rest h => step_of_schedule h⟩
  have inside : y * 64 + x < 2048 := by omega
  rw [State.snapshot, BitVec.getLsbD_ofNat, testBit_rowsToNat hx (by simpa using hy)]
  simp [Display.cell, inside, Nat.mod_eq_of_lt hx, Nat.mod_eq_of_lt hy]

/-! ## Who writes what, over every step -/

/-- Settles O50: a cycle is refused, a load is open only in Running, and every other event but a reset writes no more than
timers and keys. -/
theorem haltedIsLeftOnlyByReset : Obligations.HaltedIsLeftOnlyByReset := by
  intro s t f inv halted h
  rcases step_cases s with ⟨due, -⟩ | ⟨e, rest, schedule, notCycle, hs⟩
  · cases (step_halted due halted).symm.trans h
  · rw [hs] at h
    cases e with
    | reset => exact .inl (by rw [schedule]; rfl)
    | loadProgram bytes =>
      have running := (inv.fresh (loadProgram_next h).1).1
      cases halted.symm.trans running
    | cycle => exact absurd rfl notCycle
    | timerTick => cases h; exact .inr (s.hostInput_changesOnly _ _ _ _)
    | setKeyState k b =>
      obtain ⟨hk, rfl⟩ := setKeyState_next h
      exact .inr (s.hostInput_changesOnly _ _ _ _)
    | snapshot => cases h; exact .inr (s.hostInput_changesOnly _ _ _ _)

/-- Settles O55: in a cycle only an FX15 writes DT, and every event leaves it, lowers it or clears it. -/
theorem delayTimerRisesOnlyByItsInstruction : Obligations.DelayTimerRisesOnlyByItsInstruction := by
  intro s t h rises
  rcases step_cases s with ⟨due, hs⟩ | ⟨e, rest, -, notCycle, hs⟩ <;> rw [hs] at h
  · rcases dispatchByMode_next h with ⟨-, f, -, rfl⟩ | ⟨running, inside, i, fetched, he⟩ | ⟨x, -, rfl | ⟨k, rfl⟩⟩
    · exact absurd rises (lt_irrefl _)
    · have written : t.dt ≠ s.inCycle.dt := fun same => absurd rises (by rw [same]; exact lt_irrefl _)
      obtain ⟨-, -, -, dt, -⟩ := stateIsWrittenOnlyByItsInstructions i _ t he
      obtain ⟨x, rfl⟩ := dt written
      exact ⟨x, due, running, inside, fetched⟩
    · exact absurd rises (lt_irrefl _)
    · exact absurd rises (lt_irrefl _)
  · cases e with
    | reset => cases h; exact absurd rises (Nat.not_lt_zero _)
    | loadProgram bytes =>
      obtain ⟨-, ⟨-, rfl⟩ | ⟨-, rfl⟩⟩ := loadProgram_next h <;> exact absurd rises (lt_irrefl _)
    | cycle => exact absurd rfl notCycle
    | timerTick =>
      cases h
      have rises : s.dt.toNat < (decTimer s.dt).toNat := rises
      rw [toNat_decTimer] at rises
      omega
    | setKeyState k b =>
      obtain ⟨hk, rfl⟩ := setKeyState_next h
      exact absurd rises (lt_irrefl _)
    | snapshot => cases h; exact absurd rises (lt_irrefl _)

/-- Settles O56: no cycle writes the keys, and of the events only these two do. -/
theorem keysAreWrittenOnlyByTheHost : Obligations.KeysAreWrittenOnlyByTheHost := by
  intro s t h differ
  rcases step_cases s with ⟨due, hs⟩ | ⟨e, rest, schedule, notCycle, hs⟩ <;> rw [hs] at h
  · rcases dispatchByMode_next h with ⟨-, f, -, rfl⟩ | ⟨-, -, i, -, he⟩ | ⟨x, -, rfl | ⟨k, rfl⟩⟩
    · exact absurd rfl differ
    · exact absurd (exec_keeps_host_fields he).1 differ
    · exact absurd rfl differ
    · exact absurd rfl differ
  · rw [schedule]
    cases e with
    | reset => exact .inl rfl
    | loadProgram bytes =>
      obtain ⟨-, ⟨-, rfl⟩ | ⟨-, rfl⟩⟩ := loadProgram_next h <;> exact absurd rfl differ
    | cycle => exact absurd rfl notCycle
    | timerTick => cases h; exact absurd rfl differ
    | setKeyState k b => exact .inr ⟨k, b, rfl⟩
    | snapshot => cases h; exact absurd rfl differ

end Sys2Proof.Machine
end

section
/-! PROOFS. Jumps, SYS, skips, arithmetic, immediates, random, timers and the key wait (40_control_transfer.md to
42_arithmetic.md, 43_transfer.md, 44_random.md, 46_keypad.md to 48_font.md): what the results are as numbers, and the statements
about each instruction. The encodings are instances of `decodeOfEncodeIsTheInstruction`. -/

namespace Sys2Proof.Machine

/-! ## Results as numbers -/

theorem toNat_lowNibble (b : Byte) : (lowNibble b).val = b.toNat % 16 := by
  simp [lowNibble]

/-- The difference modulo 256, from the exact number of R157. -/
theorem toInt_subResult (a b : Byte) : ((subResult a b).toNat : Int) = ((a.toNat : Int) - b.toNat) % 256 := by
  have := a.isLt
  have := b.isLt
  rw [subResult, BitVec.toNat_ofNat]
  omega

theorem toNat_subNoBorrow (a b : Byte) : (subNoBorrow a b).toNat = if b.toNat ≤ a.toNat then 1 else 0 := by
  simp only [subNoBorrow, toNat_flagByte, decide_eq_true_eq, ge_iff_le]

theorem toNat_shrResult (b : Byte) : (shrResult b).toNat = b.toNat / 2 := by
  simp [shrResult, Nat.shiftRight_eq_div_pow]

theorem toNat_shrOut (b : Byte) : (shrOut b).toNat = b.toNat % 2 := by
  simp [shrOut, Nat.and_one_is_mod]

theorem toNat_shlResult (b : Byte) : (shlResult b).toNat = b.toNat * 2 % 256 := by
  simp [shlResult, Nat.shiftLeft_eq]

theorem toNat_shlOut (b : Byte) : (shlOut b).toNat = b.toNat / 128 := by
  simp [shlOut, Nat.shiftRight_eq_div_pow]

/-! ## Jumps and SYS -/

/-- Settles O17. After a jump to 0xFFF the fetch of the second byte is the one outside memory. -/
theorem jpSetsPc : Obligations.JpSetsPc := by
  intro nnn s
  refine ⟨decodeOfEncodeIsTheInstruction (.jp nnn) rfl, ?_⟩
  rw [show exec (.jp nnn) s = .next { s with pc := nnn.zext } from rfl, completes_next]
  refine ⟨nnn.toNat_zext, s.setPc_changesOnly _, fun self => ?_, fun last running due => ?_⟩
  · have same : nnn.zext = s.pc := BitVec.eq_of_toNat_eq (nnn.toNat_zext.trans self.symm)
    rw [same]
  · subst last
    exact (fetchOutsideMemoryHalts _ due running).2 rfl

/-- Settles O22: the sum is exact, since it is at most 0x10FE. -/
theorem jpV0AddsV0 : Obligations.JpV0AddsV0 := fun nnn s =>
  ⟨_, rfl, toNat_zext_add_zext nnn (s.reg 0), s.setPc_changesOnly _⟩

/-- Settles O23: `0x0NNN` is the encoding of SYS, well formed but for the words of CLS and RET. -/
theorem sysRaisesUnknownOpcode : Obligations.SysRaisesUnknownOpcode := by
  intro nnn s
  refine ⟨fun notCls notRet => decodeOfEncodeIsTheInstruction (.sys nnn) ?_, ⟨_, exec_sys nnn s, rfl, s.setMode_changesOnly _⟩⟩
  simp [Instr.wellFormed, notCls, notRet]

/-- Settles O20: RET takes the entry that CALL put at the old SP. -/
theorem retResumesAfterTheCall : Obligations.RetResumesAfterTheCall := by
  intro nnn s room
  rw [exec_call_of_lt nnn room, completes_next]
  intro u sameSp sameStack
  have sp : u.sp.val = s.sp.val + 1 := congrArg Fin.val sameSp
  rw [exec_ret_of_pos (by omega), completes_next]
  refine ⟨?_, Fin.ext (by simp [sp])⟩
  simp [sameStack, sp]

/-! ## Skips -/

/-- A skip whose condition is an equation. -/
theorem skipIf_of_iff {s : State} {c : Bool} {p : Prop} [Decidable p] (h : c = true ↔ p) :
    (s.skipIf c).pc = if p then s.pc + 4 else s.pc + 2 := by
  rw [State.skipIf_pc]
  simp only [h]

/-- A skip whose condition is the negation of an equation. -/
theorem skipIf_of_iff_not {s : State} {c : Bool} {p : Prop} [Decidable p] (h : c = true ↔ ¬ p) :
    (s.skipIf c).pc = if p then s.pc + 2 else s.pc + 4 := by
  rw [skipIf_of_iff h, ite_not]

/-- Rows 5 and 9 with a low nibble that is not 0 (R142, R143). -/
theorem decode_registerPair_rejects (x y : Reg) {n : Fin 16} (hn : n ≠ 0) :
    (∃ e, decode (fmtXYN 0x5 x y n) = .error e) ∧ (∃ e, decode (fmtXYN 0x9 x y n) = .error e) := by
  simp [decode, hn]

/-- Settles O24, skip by skip: each condition is the Boolean test of its equation. -/
theorem registerSkipsAdvanceByFourOrTwo : Obligations.RegisterSkipsAdvanceByFourOrTwo := by
  intro x y nn s
  refine ⟨⟨decodeOfEncodeIsTheInstruction (.seImm x nn) rfl, ⟨_, rfl, ?_, s.skipIf_changesOnly _⟩⟩,
    ⟨decodeOfEncodeIsTheInstruction (.sneImm x nn) rfl, ⟨_, rfl, ?_, s.skipIf_changesOnly _⟩⟩,
    ⟨decodeOfEncodeIsTheInstruction (.seReg x y) rfl, ⟨_, rfl, ?_, s.skipIf_changesOnly _⟩⟩,
    ⟨decodeOfEncodeIsTheInstruction (.sneReg x y) rfl, ⟨_, rfl, ?_, s.skipIf_changesOnly _⟩⟩,
    fun n hn => decode_registerPair_rejects x y hn⟩
  · exact skipIf_of_iff beq_iff_eq
  · exact skipIf_of_iff_not bne_iff_ne
  · exact skipIf_of_iff beq_iff_eq
  · exact skipIf_of_iff_not bne_iff_ne

/-- Settles O25: the key read is that of the low nibble. -/
theorem keySkipsReadTheKeyOfTheLowNibble : Obligations.KeySkipsReadTheKeyOfTheLowNibble := by
  rintro x k hk s rfl
  have key : s.keyOf x = s.key[(s.reg x).toNat % 16] := by simp only [State.keyOf, toNat_lowNibble]
  refine ⟨⟨_, rfl, skipIf_of_iff ?_, s.skipIf_changesOnly _⟩, ⟨_, rfl, skipIf_of_iff_not ?_, s.skipIf_changesOnly _⟩⟩
  · rw [key]
  · rw [key, Bool.not_eq_true', Bool.not_eq_true]

/-! ## Writes of one register -/

theorem State.setReg_advance_others (s : State) (x : Reg) (b : Byte) :
    ∀ r, r ≠ x → (s.setReg x b).advance.reg r = s.reg r :=
  fun _ hr => State.reg_setReg_ne s b hr

/-- Settles O26: one register is written, with the truncated sum. -/
theorem addImmediateWrapsWithoutFlag : Obligations.AddImmediateWrapsWithoutFlag := by
  intro x nn s
  refine ⟨_, rfl, ?_, s.setReg_advance_others x _, rfl, s.setReg_advance_changesOnly x _⟩
  rw [State.advance_reg, State.reg_setReg_same, toNat_addResult]

/-- Settles O33: one register is written. -/
theorem copyKeepsVF : Obligations.CopyKeepsVF := fun x _ s =>
  ⟨_, rfl, s.reg_setReg_same x _, s.setReg_advance_others x _, rfl, s.setReg_advance_changesOnly x _⟩

/-- Settles O32: one register, and I. -/
theorem immediatesAreLoaded : Obligations.ImmediatesAreLoaded := fun x nn nnn s =>
  ⟨⟨decodeOfEncodeIsTheInstruction (.ldImm x nn) rfl,
    ⟨_, rfl, s.reg_setReg_same x _, s.setReg_advance_others x _, rfl, s.setReg_advance_changesOnly x _⟩⟩,
   ⟨decodeOfEncodeIsTheInstruction (.ldI nnn) rfl, ⟨_, rfl, nnn.toNat_zext, rfl, s.setI_advance_changesOnly _⟩⟩⟩

/-- Settles O41: FX07 writes one register, FX15 and FX18 one timer each. -/
theorem timersAreReadAndSet : Obligations.TimersAreReadAndSet := fun x s =>
  ⟨⟨decodeOfEncodeIsTheInstruction (.ldVxDT x) rfl,
    ⟨_, rfl, s.reg_setReg_same x _, s.setReg_advance_others x _, rfl, s.setReg_advance_changesOnly x _⟩⟩,
   ⟨decodeOfEncodeIsTheInstruction (.ldDTVx x) rfl, ⟨_, rfl, rfl, rfl, s.setDt_advance_changesOnly _⟩⟩,
   ⟨decodeOfEncodeIsTheInstruction (.ldSTVx x) rfl,
    ⟨_, rfl, rfl, decide_eq_true_iff, rfl, s.setSt_advance_changesOnly _⟩⟩⟩

/-- Settles O40: bit by bit for whatever byte the draw is. -/
theorem randomIsTheMaskedDraw : Obligations.RandomIsTheMaskedDraw := by
  intro x nn s
  have stored : (s.setReg x (Config.random s.draws &&& nn)).reg x = Config.random s.draws &&& nn := s.reg_setReg_same x _
  refine ⟨decodeOfEncodeIsTheInstruction (.rnd x nn) rfl, ⟨_, rfl, fun k _ => ?bits, ?zero, ?ones,
    s.setReg_advance_others x _, rfl, rfl, s.takeDraw_advance_changesOnly x _ _⟩⟩
  case bits => exact (congrArg (BitVec.getLsbD · k) stored).trans BitVec.getLsbD_and
  case zero => rintro rfl; exact stored.trans BitVec.and_zero
  case ones => rintro rfl; exact stored.trans BitVec.and_allOnes

/-! ## Operations that write a result and VF -/

/-- What holds of the result holds of V[x] for x not F, and what holds of the flag holds of VF, for every x (R22). -/
theorem completes_writeResultThenFlag (s : State) (x : Reg) {result flag : Byte} {P Q : Byte → Prop} (hr : P result)
    (hf : Q flag) :
    Completes (.next (s.writeResultThenFlag x result flag)) fun t =>
      (x ≠ 15 → P (t.reg x)) ∧ Q (t.reg 15) ∧ (∀ r, r ≠ x → r ≠ 15 → t.reg r = s.reg r) ∧
      t.pc = s.pc + 2 ∧ ChangesOnly [.v, .pc] s t := by
  rw [completes_next]
  refine ⟨fun hx => ?_, ?_, fun r hrx hrf => State.writeResultThenFlag_other s _ _ hrx hrf, rfl,
    s.writeResultThenFlag_changesOnly x _ _⟩
  · rwa [State.writeResultThenFlag_result s _ _ hx]
  · rwa [State.writeResultThenFlag_vf]

/-- Settles O27: each of the three is its Boolean operation on every bit, and the flag is 0. -/
theorem logicalOperationsClearVF : Obligations.LogicalOperationsClearVF := by
  intro x y s c hc
  have clears : ∀ (result : Byte) (f : Bool → Bool → Bool),
      (∀ k, result.getLsbD k = f ((s.reg x).getLsbD k) ((s.reg y).getLsbD k)) →
      Completes (.next (s.writeResultThenFlag x result logicFlag)) fun t =>
        t.reg 15 = 0 ∧ (x ≠ 15 → ∀ k < 8, (t.reg x).getLsbD k = f ((s.reg x).getLsbD k) ((s.reg y).getLsbD k)) ∧
        (∀ r, r ≠ x → r ≠ 15 → t.reg r = s.reg r) ∧ t.pc = s.pc + 2 ∧ ChangesOnly [.v, .pc] s t := by
    intro result f bits
    obtain ⟨t, ht, hresult, hflag, rest⟩ := completes_writeResultThenFlag s x (result := result) (flag := logicFlag)
      (P := fun b => ∀ k < 8, b.getLsbD k = f ((s.reg x).getLsbD k) ((s.reg y).getLsbD k)) (Q := (· = 0))
      (fun k _ => bits k) rfl
    exact ⟨t, ht, hflag, hresult, rest⟩
  simp only [List.mem_cons, List.not_mem_nil, or_false] at hc
  rcases hc with rfl | rfl | rfl
  · exact clears _ _ fun k => BitVec.getLsbD_or
  · exact clears _ _ fun k => BitVec.getLsbD_and
  · exact clears _ _ fun k => BitVec.getLsbD_xor

/-- Settles O29: both are `subResult` and `subNoBorrow`, with the operands exchanged. -/
theorem subtractionsSetNoBorrow : Obligations.SubtractionsSetNoBorrow := fun x y s =>
  ⟨⟨decodeOfEncodeIsTheInstruction (.subReg x y) rfl,
    completes_writeResultThenFlag s x (P := fun b => (b.toNat : Int) = _) (Q := fun b => b.toNat = _)
      (toInt_subResult _ _) (toNat_subNoBorrow _ _)⟩,
   ⟨decodeOfEncodeIsTheInstruction (.subnReg x y) rfl,
    completes_writeResultThenFlag s x (P := fun b => (b.toNat : Int) = _) (Q := fun b => b.toNat = _)
      (toInt_subResult _ _) (toNat_subNoBorrow _ _)⟩⟩

/-- Settles O30: result and flag are functions of the old Vy. -/
theorem shiftsTakeVyAndMoveABitOut : Obligations.ShiftsTakeVyAndMoveABitOut := fun x _ s =>
  ⟨completes_writeResultThenFlag s x (P := fun b => b.toNat = _) (Q := fun b => b.toNat = _)
    (toNat_shrResult _) (toNat_shrOut _),
   completes_writeResultThenFlag s x (P := fun b => b.toNat = _) (Q := fun b => b.toNat = _)
    (toNat_shlResult _) (toNat_shlOut _)⟩

/-! ## I and the font -/

/-- Settles O31: the sum of 16-bit values is modulo 65536. -/
theorem addToIWrapsAtSixteenBits : Obligations.AddToIWrapsAtSixteenBits := by
  intro x s
  refine ⟨_, rfl, ?_, rfl, s.setI_advance_changesOnly _⟩
  show (s.i + (s.reg x).zext).toNat = _
  rw [BitVec.toNat_add, Byte.toNat_zext]

theorem toNat_glyphAddr (b : Byte) : (glyphAddr b).toNat = 0x050 + 5 * (b.toNat % 16) := by
  rw [glyphAddr, BitVec.toNat_ofNat, toNat_lowNibble]
  show (0x050 + _) % 65536 = _
  omega

/-- The sixteen glyphs as the source draws them, each five rows in one number, first row highest (R70). -/
def glyphRows : List (BitVec 40) :=
  [0xF0909090F0#40, 0x2060202070#40, 0xF010F080F0#40, 0xF010F010F0#40, 0x9090F01010#40, 0xF080F010F0#40, 0xF080F090F0#40,
   0xF010204040#40, 0xF090F090F0#40, 0xF090F010F0#40, 0xF090F09090#40, 0xE090E090E0#40, 0xF0808080F0#40, 0xE0909090E0#40,
   0xF080F080F0#40, 0xF080F08080#40]

/-- The font table holds row `r` of glyph `g` at `5 * g + r`. -/
theorem fontTable_glyphRows : ∀ (g : Fin 16) (r : Fin 5),
    fontTable.getD (5 * g.val + r.val) 0 = (glyphRows.getD g.val 0).extractLsb' (8 * (4 - r.val)) 8 := by
  decide

/-- Settles O42: five bytes a glyph, counted from the font base. -/
theorem fontAddressIsTheGlyph : Obligations.FontAddressIsTheGlyph := by
  intro x s
  have addr := toNat_glyphAddr (s.reg x)
  have glyph := Nat.mod_lt (s.reg x).toNat (show 0 < 16 by decide)
  refine ⟨_, rfl, addr, ?bound, fun r => ?row, rfl, s.setI_advance_changesOnly _⟩
  case bound => exact addr.le.trans (by omega)
  case row =>
    show resetByte ((glyphAddr (s.reg x)).toNat + r.val) = _
    rw [addr, Nat.add_assoc, resetByte_font]
    exact fontTable_glyphRows ⟨_, glyph⟩ r

/-- Settles O46: MODE alone is written. -/
theorem keyWaitIsEnteredAtItsPc : Obligations.KeyWaitIsEnteredAtItsPc := fun x s =>
  ⟨decodeOfEncodeIsTheInstruction (.ldVxK x) rfl, ⟨_, rfl, rfl, s.setMode_changesOnly _⟩⟩

end Sys2Proof.Machine
end

section
/-! PROOFS. Guarded memory accesses (20_memory.md sections 2, 3, 7; 43_transfer.md): the range check on both sides, what the
block transfers leave, and the statements about FX33, FX55 and FX65. -/

namespace Sys2Proof.Machine

/-! ## The range check -/

theorem guardRange_inside {s e : State} {n : Nat} (h : n = 0 ∨ s.i.toNat + n ≤ 4096) :
    guardRange s (s.dataOutOfRange n) e = .next e := by
  rw [dataOutOfRange_none h, guardRange_none]

/-- The state of an access out of range: the record holds the lowest such address (R65), and nothing else is written. -/
theorem guardRange_outside {s e : State} {n : Nat} (hn : 0 < n) (h : 4096 < s.i.toNat + n) :
    guardRange s (s.dataOutOfRange n) e = .next { s with
      mode := .halted (.outOfBoundsAccess (if 4096 ≤ s.i.toNat then s.i else 0x1000#16) s.pc) } := by
  have lowest : BitVec.ofNat 16 (max s.i.toNat 4096) = if 4096 ≤ s.i.toNat then s.i else 0x1000#16 := by
    split
    case isTrue past => rw [max_eq_left past, BitVec.ofNat_toNat, BitVec.setWidth_eq]
    case isFalse below => rw [max_eq_right (by omega)]
  rw [dataOutOfRange_some hn h, guardRange_some, ← lowest]

/-- Settles O39: the four instructions share the range check. -/
theorem dataAccessOutOfRangeHalts : Obligations.DataAccessOutOfRangeHalts := by
  intro x y n s c hc hpos hout
  simp only [List.mem_cons, List.not_mem_nil, or_false] at hc
  rcases hc with rfl | rfl | rfl | rfl <;> exact guardRange_outside hpos hout

/-! ## The four instructions inside memory -/

theorem exec_ldB_inside {x : Reg} {s : State} (h : s.i.toNat + 3 ≤ 4096) :
    exec (.ldB x) s =
      .next (State.advance { s with mem := Memory.writeBlock s.mem (s.dataAddr 0) (bcdDigits (s.reg x)) }) :=
  guardRange_inside (.inr h)

theorem exec_ldMemVx_inside {x : Reg} {s : State} (h : s.i.toNat + x.val < 4096) :
    exec (.ldMemVx x) s =
      .next (State.advance { s with mem := Memory.writeBlock s.mem (s.dataAddr 0) (s.regsUpTo x),
                                    i := BitVec.ofNat 16 (s.dataAddr (x.val + 1)) }) :=
  guardRange_inside (.inr h)

theorem exec_ldVxMem_inside {x : Reg} {s : State} (h : s.i.toNat + x.val < 4096) :
    exec (.ldVxMem x) s =
      .next (State.advance { s with v := loadRegs s.mem (s.dataAddr 0) (x.val + 1) s.v,
                                    i := BitVec.ofNat 16 (s.dataAddr (x.val + 1)) }) :=
  guardRange_inside (.inr h)

/-- I moved past a block inside memory: no wrap (R186, R188). -/
theorem toNat_movedI {x : Reg} {s : State} (h : s.i.toNat + x.val < 4096) :
    (BitVec.ofNat 16 (s.dataAddr (x.val + 1))).toNat = s.i.toNat + x.val + 1 := by
  rw [BitVec.toNat_ofNat, State.dataAddr]
  omega

/-! ## What a block in memory reads as -/

@[simp] theorem bcdDigits_length (b : Byte) : (bcdDigits b).length = 3 := rfl

/-- The digits in their order (R184). -/
theorem toNat_bcdDigits (b : Byte) :
    ((bcdDigits b)[0]).toNat = b.toNat / 100 ∧ ((bcdDigits b)[1]).toNat = b.toNat / 10 % 10 ∧
    ((bcdDigits b)[2]).toNat = b.toNat % 10 := by
  have := b.isLt
  simp only [bcdDigits, List.getElem_cons_zero, List.getElem_cons_succ, BitVec.toNat_ofNat]
  omega

/-- An address that is none of `n` consecutive ones lies below or above them. -/
theorem outside_of_forall_ne {a b n : Nat} (h : ∀ k < n, b ≠ a + k) : b < a ∨ a + n ≤ b := by
  by_contra inside
  exact h (b - a) (by omega) (by omega)

/-- Settles O34, by the two sides of the range check: the three digits are a block at I. -/
theorem bcdStoresThreeDigits : Obligations.BcdStoresThreeDigits := by
  intro x s
  refine ⟨decodeOfEncodeIsTheInstruction (.ldB x) rfl, fun inside => ?_,
    fun outside => guardRange_outside (by decide) (by omega)⟩
  rw [exec_ldB_inside (by omega), completes_next]
  have stored : ∀ (k : Nat) (hk : k < 3),
      Memory.read (Memory.writeBlock s.mem (s.dataAddr 0) (bcdDigits (s.reg x))) (s.dataAddr k) = (bcdDigits (s.reg x))[k] :=
    fun k hk => Memory.read_writeBlock_inside s.mem s.i.toNat (bcdDigits (s.reg x)) hk
  obtain ⟨hundreds, tens, ones⟩ := toNat_bcdDigits (s.reg x)
  refine ⟨?_, ?_, ?_, fun a ha => ?others, rfl, s.store_advance_changesOnly _⟩
  · rw [State.advance_mem, stored 0 (by decide), hundreds]
  · rw [State.advance_mem, stored 1 (by decide), tens]
  · rw [State.advance_mem, stored 2 (by decide), ones]
  case others => exact Memory.read_writeBlock_outside _ _ _ (outside_of_forall_ne ha)

/-- The block FX55 stores: V[r] at I + r. -/
theorem read_storedRegs {x r : Reg} (s : State) (hr : r ≤ x) :
    Memory.read (Memory.writeBlock s.mem (s.dataAddr 0) (s.regsUpTo x)) (s.dataAddr r.val) = s.reg r := by
  have hk : r.val < (s.regsUpTo x).length := by rw [regsUpTo_length]; exact Nat.lt_succ_of_le hr
  exact (Memory.read_writeBlock_inside s.mem s.i.toNat _ hk).trans (regsUpTo_getElem s x r.val hk)

/-- Settles O35: the registers are a block at I. -/
theorem blockStoreWritesV0ToVx : Obligations.BlockStoreWritesV0ToVx := by
  intro x s inside
  rw [exec_ldMemVx_inside inside, completes_next]
  refine ⟨fun r hr => read_storedRegs s hr, fun a ha => ?others, toNat_movedI inside, rfl,
    s.storeBlock_advance_changesOnly _ _⟩
  case others =>
    refine Memory.read_writeBlock_outside _ _ _ ?_
    rw [regsUpTo_length]
    exact outside_of_forall_ne fun k hk => ha k (Nat.le_of_lt_succ hk)

/-- Settles O36: `loadRegs` writes the registers up to Vx and no other. -/
theorem blockLoadReadsV0ToVx : Obligations.BlockLoadReadsV0ToVx := by
  intro x s inside
  rw [exec_ldVxMem_inside inside, completes_next]
  refine ⟨fun r hr => ?loaded, fun r hr => ?kept, toNat_movedI inside, rfl, s.loadBlock_advance_changesOnly _ _⟩
  case loaded => exact (loadRegs_getElem _ _ _ _ _ r.isLt).trans (if_pos (Nat.lt_succ_of_le hr))
  case kept => exact (loadRegs_getElem _ _ _ _ _ r.isLt).trans (if_neg (Nat.not_lt.mpr hr))

/-- Settles O37: the load reads from I on what the store put there. -/
theorem blockStoreThenLoadRestores : Obligations.BlockStoreThenLoadRestores := by
  intro x s between inside
  obtain ⟨t, store, stored, -⟩ := blockStoreWritesV0ToVx x s inside
  obtain ⟨u, load, loaded, -⟩ := blockLoadReadsV0ToVx x { t with i := s.i, v := between } inside
  exact ⟨t, store, u, load, fun r hr => (loaded r hr).trans (stored r hr)⟩

/-- Settles O38: the two bytes of the fetch are two neighbours of the block. -/
theorem fetchSeesTheStoredBlock : Obligations.FetchSeesTheStoredBlock := by
  intro x r q s inside next hq
  obtain ⟨t, store, stored, -⟩ := blockStoreWritesV0ToVx x s inside
  have hr : r ≤ x := by
    have : q.val ≤ x.val := hq
    exact Fin.le_def.mpr (by omega)
  have second : s.dataAddr r.val + 1 = s.dataAddr q.val := by rw [next]; rfl
  refine ⟨t, store, ?_⟩
  show Memory.read t.mem (s.dataAddr r.val) ++ Memory.read t.mem (s.dataAddr r.val + 1) = s.reg r ++ s.reg q
  rw [second, stored r hr, stored q hq]

end Sys2Proof.Machine
end

section
/-! PROOFS. Drawing (45_display.md R207 to R211): what one draw does to the cells and VF, and the statements about one draw and
two. -/

namespace Sys2Proof.Machine

/-- The display and the hit a draw of `n` rows leaves. -/
def State.drawn (s : State) (x y : Reg) (n : Fin 16) : Display × Bool :=
  drawRows s.mem (s.dataAddr 0) (s.reg x).toNat (s.reg y).toNat n.val (s.fb, false)

/-- The state after a draw inside memory. -/
def State.afterDraw (s : State) (x y : Reg) (n : Fin 16) : State :=
  (State.setReg { s with fb := (s.drawn x y n).1 } vf (flagByte (s.drawn x y n).2)).advance

theorem exec_drw_inside {x y : Reg} {n : Fin 16} {s : State} (h : n.val = 0 ∨ s.i.toNat + n.val ≤ 4096) :
    exec (.drw x y n) s = .next (s.afterDraw x y n) :=
  guardRange_inside h

theorem State.afterDraw_vf (s : State) (x y : Reg) (n : Fin 16) :
    (s.afterDraw x y n).reg 15 = flagByte (s.drawn x y n).2 :=
  State.reg_setReg_same _ _ _

/-- The cells of the loops are those of the statement, for coordinates on the display. -/
theorem rowsPaint_iff_spritePaints {x y : Reg} {n : Fin 16} {s : State} {px py : Nat} (hx : px < 64) (hy : py < 32) :
    rowsPaint s.mem (s.dataAddr 0) (s.reg x).toNat (s.reg y).toNat n.val px py ↔ s.spritePaints x y n px py := by
  simp only [rowsPaint, rowPaints, State.spritePaints, Nat.mod_eq_of_lt hx, Nat.mod_eq_of_lt hy]
  constructor
  · rintro ⟨r, hr, c, hc, bit, hpx, hpy⟩
    exact ⟨r, hr, c, hc, bit, hpx, hpy⟩
  · rintro ⟨r, hr, c, hc, bit, hpx, hpy⟩
    exact ⟨r, hr, c, hc, bit, hpx, hpy⟩

theorem drawn_cell_painted {x y : Reg} {n : Fin 16} {s : State} {px py : Nat} (hx : px < 64) (hy : py < 32)
    (paints : s.spritePaints x y n px py) : (s.drawn x y n).1.cell px py = !s.fb.cell px py :=
  ((drawRows_spec _ _ _ _ n.val (by omega) _).1 px py).1 ((rowsPaint_iff_spritePaints hx hy).mpr paints)

theorem drawn_cell_unpainted {x y : Reg} {n : Fin 16} {s : State} {px py : Nat} (hx : px < 64) (hy : py < 32)
    (spares : ¬ s.spritePaints x y n px py) : (s.drawn x y n).1.cell px py = s.fb.cell px py :=
  ((drawRows_spec _ _ _ _ n.val (by omega) _).1 px py).2 (mt (rowsPaint_iff_spritePaints hx hy).mp spares)

/-- Cells repeat with the size of the display. -/
theorem rowsPaint_mod (m : Memory) (a cx cy n px py : Nat) :
    rowsPaint m a cx cy n (px % 64) (py % 32) ↔ rowsPaint m a cx cy n px py := by
  simp only [rowsPaint, rowPaints, Nat.mod_mod]

theorem Display.cell_mod (fb : Display) (px py : Nat) : fb.cell (px % 64) (py % 32) = fb.cell px py := by
  simp [Display.cell]

/-- The hit is a set cell that the sprite paints. -/
theorem drawn_hit_iff (x y : Reg) (n : Fin 16) (s : State) :
    (s.drawn x y n).2 = true ↔ ∃ px < 64, ∃ py < 32, s.spritePaints x y n px py ∧ s.fb.cell px py = true := by
  have hit := (drawRows_spec s.mem (s.dataAddr 0) (s.reg x).toNat (s.reg y).toNat n.val (by omega) (s.fb, false)).2
  rw [State.drawn, hit]
  constructor
  · rintro (h | ⟨px, py, paints, set⟩)
    · cases h
    · have hx : px % 64 < 64 := Nat.mod_lt _ (by decide)
      have hy : py % 32 < 32 := Nat.mod_lt _ (by decide)
      exact ⟨px % 64, hx, py % 32, hy, (rowsPaint_iff_spritePaints hx hy).mp ((rowsPaint_mod ..).mpr paints),
        (Display.cell_mod ..).trans set⟩
  · rintro ⟨px, hx, py, hy, paints, set⟩
    exact .inr ⟨px, py, (rowsPaint_iff_spritePaints hx hy).mpr paints, set⟩

theorem flagByte_eq_one {c : Bool} : flagByte c = 1 ↔ c = true := by
  cases c <;> decide

theorem flagByte_eq_zero {c : Bool} : flagByte c = 0 ↔ c = false := by
  cases c <;> decide

/-- Settles O44, by the two sides of the range check: inside, the cells and the hit are those of the loops. -/
theorem drawFlipsSpriteCellsAndReportsCollision : Obligations.DrawFlipsSpriteCellsAndReportsCollision := by
  intro x y n s
  refine ⟨decodeOfEncodeIsTheInstruction (.drw x y n) rfl, fun inside => ?_,
    fun hn outside => guardRange_outside hn outside⟩
  rw [exec_drw_inside inside, completes_next]
  refine ⟨fun px hx py hy => ⟨drawn_cell_painted hx hy, drawn_cell_unpainted hx hy⟩, fun collides => ?_, fun clear => ?_,
    fun r hr => State.reg_setReg_ne _ _ hr, rfl, s.draw_advance_changesOnly _ _ _⟩
  · rw [State.afterDraw_vf, flagByte_eq_one]
    exact (drawn_hit_iff x y n s).mpr collides
  · rw [State.afterDraw_vf, flagByte_eq_zero, ← Bool.not_eq_true, drawn_hit_iff]
    rintro ⟨px, hx, py, hy, paints, set⟩
    cases (clear px hx py hy paints).symm.trans set

/-! ## Two draws -/

/-- The state between two draws at the same place: drawn once, with the registers as at first. -/
def State.drawnOnce (s : State) (x y : Reg) (n : Fin 16) : State := { s.afterDraw x y n with v := s.v }

/-- The second draw paints the same cells. -/
theorem drawnOnce_spritePaints (s : State) (x y : Reg) (n : Fin 16) (px py : Nat) :
    (s.drawnOnce x y n).spritePaints x y n px py ↔ s.spritePaints x y n px py := Iff.rfl

theorem drawnOnce_cell_painted {x y : Reg} {n : Fin 16} {s : State} {px py : Nat} (hx : px < 64) (hy : py < 32)
    (paints : s.spritePaints x y n px py) : (s.drawnOnce x y n).fb.cell px py = !s.fb.cell px py :=
  drawn_cell_painted hx hy paints

theorem drawnOnce_cell_unpainted {x y : Reg} {n : Fin 16} {s : State} {px py : Nat} (hx : px < 64) (hy : py < 32)
    (spares : ¬ s.spritePaints x y n px py) : (s.drawnOnce x y n).fb.cell px py = s.fb.cell px py :=
  drawn_cell_unpainted hx hy spares

/-- What the first draw flipped, the second flips back. -/
theorem drawn_drawnOnce (x y : Reg) (n : Fin 16) (s : State) : ((s.drawnOnce x y n).drawn x y n).1 = s.fb := by
  refine Display.ext fun px hx py hy => ?_
  by_cases paints : s.spritePaints x y n px py
  · have again := (drawnOnce_spritePaints s x y n px py).mpr paints
    rw [drawn_cell_painted hx hy again, drawnOnce_cell_painted hx hy paints, Bool.not_not]
  · have again := mt (drawnOnce_spritePaints s x y n px py).mp paints
    rw [drawn_cell_unpainted hx hy again, drawnOnce_cell_unpainted hx hy paints]

/-- The second draw hits exactly the cells that the first one set. -/
theorem drawnOnce_hit_iff (x y : Reg) (n : Fin 16) (s : State) :
    ((s.drawnOnce x y n).drawn x y n).2 = true ↔
      ∃ px < 64, ∃ py < 32, s.spritePaints x y n px py ∧ s.fb.cell px py = false := by
  rw [drawn_hit_iff]
  constructor
  · rintro ⟨px, hx, py, hy, paints, set⟩
    have paints := (drawnOnce_spritePaints s x y n px py).mp paints
    rw [drawnOnce_cell_painted hx hy paints, Bool.not_eq_true'] at set
    exact ⟨px, hx, py, hy, paints, set⟩
  · rintro ⟨px, hx, py, hy, paints, unset⟩
    refine ⟨px, hx, py, hy, (drawnOnce_spritePaints s x y n px py).mpr paints, ?_⟩
    rw [drawnOnce_cell_painted hx hy paints, unset, Bool.not_false]

/-- Settles O45: the second draw paints the same cells, so it flips them back, and it hits where the first one set a cell. -/
theorem drawTwiceGivesTheDisplayBack : Obligations.DrawTwiceGivesTheDisplayBack := by
  intro x y n s inside
  refine ⟨_, exec_drw_inside (.inr inside), _, exec_drw_inside (s := s.drawnOnce x y n) (.inr inside),
    drawn_drawnOnce x y n s, ?_⟩
  rw [State.afterDraw_vf, flagByte_eq_one]
  exact drawnOnce_hit_iff x y n s

end Sys2Proof.Machine
end
